-- ==== Sys2Proof/Word.lean ====
section
/-! DEFINITION. The word types of F32DEC: 32-bit patterns and 21-bit character codes (00_scope.md R7, R8). -/

namespace Sys2Proof

/-- A 32-bit pattern, bit 0 least significant (00_scope.md R7 `WORD_W`, R8). -/
abbrev Word := BitVec 32

/-- One character lane's code, `CHAR_W` = 21 bits (00_scope.md R7, 30_encoding.md R48). -/
abbrev CharCode := BitVec 21

/-- The 32 character lanes, lane 0 the leftmost character (00_scope.md R7 `STR_N`, R9). -/
abbrev Lanes := Vector CharCode 32

end Sys2Proof
end

