-- ==== Sys2Proof/Config.lean ====
section
/-! DEFINITION. The parameters an F32DEC instance is built with (00_scope.md R7). The open ones are opaque constants
without a body, so every statement holds for every legal choice of them. -/

namespace Sys2Proof.Config

/-- The open part of `LEN_W`: by how much it exceeds its least legal value 6 (00_scope.md R7; log entry 7). -/
opaque lenWExcess : Nat

/-- `LEN_W`, the width of `len_i`: any integer >= 6 (00_scope.md R7, 92_eei_decisions.md D5). -/
def lenW : Nat := 6 + lenWExcess

/-- Whether `n` is a value of the `LEN_W`-bit port `len_i`, that is `n < 2 ^ lenW` (`lenFits_iff`). The first test
follows from `LEN_W >= 6`; it lets the kernel evaluate short lengths without knowing `LEN_W`. -/
def lenFits (n : Nat) : Bool := decide (n < 64) || decide (n < 2 ^ lenW)

/-- The free sign bit of `NAN_BITS` (00_scope.md R7; log entry 6). -/
opaque nanSign : BitVec 1

/-- The free mantissa of `NAN_BITS`, less one: `NAN_BITS[22:0]` is any value from 1 to 2^23 - 1 (log entry 6). -/
opaque nanMantissaPred : Fin 8388607

/-- The NaN encoding with the given sign and the mantissa `pred + 1`. Every NaN encoding arises from exactly one pair
of arguments, so the open constants above leave `NAN_BITS` as free as 00_scope.md R7 does. -/
def nanEncoding (sign : BitVec 1) (pred : Fin 8388607) : Word :=
  sign ++ (0xFF#8 ++ BitVec.ofNat 23 (pred.val + 1))

/-- `NAN_BITS`, the one encoding this instance outputs for every NaN pattern (41_float_interpreter.md R83). -/
def nanBits : Word := nanEncoding nanSign nanMantissaPred

/-- `LATENCY`: implementation-defined, and no rule reads it (00_scope.md R7, 70_reset_and_hazards.md R114; log
entry 8). The model has no time, so nothing here reads it either. -/
opaque latency : Nat

end Sys2Proof.Config
end

