-- ==== Sys2Proof/Syntax.lean ====
section
/-! DEFINITION. The transactions of F32DEC as syntax, and the input ports that encode them (30_encoding.md R42, R43;
10_state.md section 2). -/

namespace Sys2Proof

/-- The levels on the input ports: what a transaction is encoded by (10_state.md R19 to R21). `len_i` is a count of
characters and stands as a Nat below `2 ^ LEN_W` (WellFormed; log entry 7). -/
structure Inputs where
  op_i   : BitVec 2
  bits_i : Word
  len_i  : Nat
  chr_i  : Lanes
  deriving DecidableEq, Repr

/-- The input ports, one by one; a character lane counts as a port of its own, since 00_scope.md R9's `chr_i[k]`
reads one lane. -/
inductive InPort where
  | op
  | bits
  | len
  | chr (k : Fin 32)
  deriving DecidableEq, Repr

/-- One transaction with the operands of its format (30_encoding.md R42): the rows of spec/opcode_table.json. -/
inductive Instr where
  /-- PARSE, format TS, `op_i = 00` (40_bitparser.md R61). -/
  | parse (n : Nat) (c : Lanes)
  /-- DECODE, format TW, `op_i = 01` (41_float_interpreter.md R85). -/
  | decode (w : Word)
  /-- PARSE_DECODE, format TS, `op_i = 10` (42_pipeline.md R91). -/
  | parseDecode (n : Nat) (c : Lanes)
  /-- RESERVED, format TN, `op_i = 11` (30_encoding.md R44). -/
  | reserved
  deriving DecidableEq, Repr

end Sys2Proof
end

