-- ==== Sys2Proof/WellFormed.lean ====
section
/-! DEFINITION. Well-formedness: the one thing the types do not say is that a length is a value of the `LEN_W`-bit
port `len_i` (10_state.md R21). Every other operand value is legal (R20, 30_encoding.md R48). -/

namespace Sys2Proof

/-- A transaction whose operands are values of their ports (30_encoding.md R42). -/
def Instr.wf : Instr → Bool
  | .parse n _ => Config.lenFits n
  | .decode _ => true
  | .parseDecode n _ => Config.lenFits n
  | .reserved => true

/-- Input levels that the ports can carry (10_state.md section 2). -/
def Inputs.wf (p : Inputs) : Bool := Config.lenFits p.len_i

end Sys2Proof
end

