-- ==== Sys2Proof/Decode.lean ====
section
/-! DEFINITION. From input levels to a transaction and back (30_encoding.md R42, R43), and the numbering of the input
ports as one word that the host's table words use (log entry 5). -/

namespace Sys2Proof

/-- Why input levels or a table word are no transaction. -/
inductive DecodeError where
  /-- `len_i` is given more bits than its `LEN_W`: no value of the port (log entry 13). -/
  | lengthTooWide
  /-- A table word of fewer than 2 bits holds no `op_i`. -/
  | operationSelectMissing
  deriving DecidableEq, Repr

/-- The operation map: every 2-bit `op_i` selects one row, and ports the format does not list are ignored
(30_encoding.md R42, R43, R53). -/
def decodeOp (p : Inputs) : Instr :=
  if p.op_i = 0b00#2 then .parse p.len_i p.chr_i
  else if p.op_i = 0b01#2 then .decode p.bits_i
  else if p.op_i = 0b10#2 then .parseDecode p.len_i p.chr_i
  else .reserved

/-- The decoder: total on all input levels, rejecting by name the ones no port can carry. -/
def decode (p : Inputs) : Except DecodeError Instr :=
  if p.wf then .ok (decodeOp p) else .error .lengthTooWide

/-- The input levels that encode `i`, with the ports `i`'s format does not list left at the levels of `rest`
(30_encoding.md R42, R43; "leave ports the format does not list at any value", 60_exceptions.md R105). -/
def encodeOver (rest : Inputs) : Instr → Inputs
  | .parse n c => { rest with op_i := 0b00#2, len_i := n, chr_i := c }
  | .decode w => { rest with op_i := 0b01#2, bits_i := w }
  | .parseDecode n c => { rest with op_i := 0b10#2, len_i := n, chr_i := c }
  | .reserved => { rest with op_i := 0b11#2 }

/-- Every input port at 0: the filling `encode` uses for the ports a format does not list (log entry 12). -/
def Inputs.zero : Inputs := { op_i := 0, bits_i := 0, len_i := 0, chr_i := Vector.replicate 32 0 }

/-- The encoder: the port values of `i`, all other ports at 0. -/
def encode (i : Instr) : Inputs := encodeOver Inputs.zero i

/-- The lanes as one number above which `tail` stands: lane 0 in the lowest 21 bits. -/
def packLanes : List CharCode → Nat → Nat
  | [], tail => tail
  | ch :: rest, tail => ch.toNat + 2 ^ 21 * packLanes rest tail

/-- The input ports numbered as one word, `op_i` in bits 1:0 as spec/opcode_table.json numbers it, then `bits_i`
(bits 33:2), lanes 0 to 31 (lane k from bit 34 + 21 k), and `len_i` (from bit 706). The order after `op_i` is the
model's own (log entry 5). -/
def Inputs.toFrame (p : Inputs) : Nat :=
  p.op_i.toNat + 2 ^ 2 * (p.bits_i.toNat + 2 ^ 32 * packLanes p.chr_i.toList p.len_i)

/-- The input levels a word in the numbering of `Inputs.toFrame` stands for. -/
def Inputs.ofFrame (x : Nat) : Inputs where
  op_i := BitVec.ofNat 2 x
  bits_i := BitVec.ofNat 32 (x >>> 2)
  len_i := x >>> 706
  chr_i := Vector.ofFn fun k : Fin 32 => BitVec.ofNat 21 (x >>> (34 + 21 * k.val))

/-- The levels of a table word: its lowest `nbits` bits, every bit above them 0. -/
def Inputs.ofTableWord (nbits w : Nat) : Inputs := Inputs.ofFrame (w % 2 ^ nbits)

/-- The decoder on a table word, rejecting by name. -/
def decodeWord (nbits w : Nat) : Except DecodeError Instr :=
  if nbits < 2 then .error .operationSelectMissing else decode (Inputs.ofTableWord nbits w)

/-- The decoder on a table word, as the host asks for it: none where it rejects. -/
def decodeTableWord (nbits w : Nat) : Option Instr := (decodeWord nbits w).toOption

end Sys2Proof
end

