-- ==== Sys2Proof/Machine/State.lean ====
section
/-! DEFINITION. The state of the machine: the input and output ports, whether the host has held the inputs, and the
host's run (10_state.md R15, section 2; 70_reset_and_hazards.md R110, R112). The block itself stores nothing. -/

namespace Sys2Proof.Machine

/-- Which inputs the host has held at one value since it presented the transaction (70_reset_and_hazards.md R112). -/
structure Held where
  op_i   : Bool
  bits_i : Bool
  len_i  : Bool
  chr_i  : Vector Bool 32
  deriving DecidableEq, Repr

/-- The host as it should be: every input held (60_exceptions.md R105). -/
def Held.all : Held := { op_i := true, bits_i := true, len_i := true, chr_i := Vector.replicate 32 true }

/-- A transaction as the host presents it: the levels, and which of them it holds (R112). -/
structure Presentation where
  inputs : Inputs
  held   : Held
  deriving DecidableEq, Repr

/-- The output ports (10_state.md R22 to R26). -/
structure Outputs where
  word_o   : Word
  f32_o    : Word
  sign_o   : BitVec 1
  char_o   : BitVec 8
  mant_o   : BitVec 23
  class_o  : BitVec 3
  err_o    : BitVec 2
  errchr_o : CharCode
  deriving DecidableEq, Repr

/-- Every output at 0: the default of an output an operation does not define (10_state.md R27). -/
def Outputs.zero : Outputs :=
  { word_o := 0, f32_o := 0, sign_o := 0, char_o := 0, mant_o := 0, class_o := 0, err_o := 0, errchr_o := 0 }

/-- Why the machine stops with a fault. Both are safe: the model gives no value where the spec gives none. -/
inductive Fault where
  /-- Raised by `step`, and by every meaning through `transact`, before the host has driven the inputs: the outputs
  are unspecified (70_reset_and_hazards.md R110, 93_implementation_defined.md I2). Safe. -/
  | inputsUndriven
  /-- Raised by `readOutputs` when the host reads outside a defined transaction (R110, I2). Safe. -/
  | outputsUnreadable
  deriving DecidableEq, Repr

/-- Why a transaction is refused. -/
inductive Refusal where
  /-- An instruction without a meaning yet; no arm of `exec` answers it in this model. Safe. -/
  | notModelled (mnemonic : String)
  /-- Raised by every meaning through `transact`: an input the operation reads did not hold one value, so the
  transaction has no outputs (70_reset_and_hazards.md R112, 93_implementation_defined.md I3). Safe. -/
  | inputChanged
  /-- Raised by `step`: `len_i` is given more bits than `LEN_W`, so the levels are no input of this instance (log
  entry 13). Safe. -/
  | lengthTooWide
  deriving DecidableEq, Repr

/-- The ports and the host's run. -/
structure State where
  /-- The transaction on the input ports; none before the host first drives them (R110). -/
  presented : Option Presentation
  /-- The output ports; none where a read of them has no value (R110). -/
  outputs   : Option Outputs
  /-- The transactions of the host's run not issued yet, oldest first (00_scope.md R11, 20_memory.md R40; log
  entry 3). -/
  pending   : List Presentation
  deriving DecidableEq, Repr

/-- The machine right after power-up: no input driven, no output readable, nothing issued (10_state.md R32,
70_reset_and_hazards.md R110; log entry 2). -/
def State.reset : State := { presented := none, outputs := none, pending := [] }

end Sys2Proof.Machine
end

