-- ==== Sys2Proof/Machine/Flags.lean ====
section
/-! DEFINITION. The status the block reports. It has no flags (10_state.md R17): its only status is the error code and
the class code of the transaction, both outputs (30_encoding.md R49, R50). -/

namespace Sys2Proof.Machine

/-- The errors a transaction can end in (60_exceptions.md R97 to R99). -/
inductive ErrorCode where
  | wrongLength
  | invalidCharacter
  | reservedOp
  deriving DecidableEq, Repr

/-- The `err_o` code of an error; 0 is no error (30_encoding.md R49). -/
def errCode : ErrorCode → BitVec 2
  | .wrongLength => 1
  | .invalidCharacter => 2
  | .reservedOp => 3

/-- The five cases of the special-case policy (41_float_interpreter.md R71). -/
inductive FloatClass where
  | zero
  | subnormal
  | infinity
  | nan
  | normal
  deriving DecidableEq, Repr

/-- The `class_o` code of a class; 0 is "no decode took place" (30_encoding.md R50). -/
def classCode : FloatClass → BitVec 3
  | .zero => 1
  | .subnormal => 2
  | .infinity => 3
  | .nan => 4
  | .normal => 5

/-- The special-case policy in its order of evaluation (41_float_interpreter.md R71). -/
def classify (c : BitVec 8) (m : BitVec 23) : FloatClass :=
  if c = 0#8 ∧ m = 0#23 then .zero
  else if c = 0#8 ∧ m ≠ 0#23 then .subnormal
  else if c = 255#8 ∧ m = 0#23 then .infinity
  else if c = 255#8 ∧ m ≠ 0#23 then .nan
  else .normal

end Sys2Proof.Machine
end

