-- ==== Sys2Proof/Machine/Operands.lean ====
section
/-! DEFINITION. The operands of the three formats: the fields of a bit pattern, the digits of a string, and which
input ports each operand form reads (30_encoding.md R42, R45, R48; 70_reset_and_hazards.md R112). -/

namespace Sys2Proof.Machine

/-- Sign `w[31]` (41_float_interpreter.md R68). -/
def signField (w : Word) : BitVec 1 := w.extractLsb' 31 1

/-- Characteristic `w[30:23]` (R69). -/
def charField (w : Word) : BitVec 8 := w.extractLsb' 23 8

/-- Mantissa `w[22:0]` (R70). -/
def mantField (w : Word) : BitVec 23 := w.extractLsb' 0 23

/-- The class of a bit pattern (R71). -/
def classOf (w : Word) : FloatClass := classify (charField w) (mantField w)

/-- `'0'` (30_encoding.md R48). -/
def digitZero : CharCode := 0x30#21

/-- `'1'` (30_encoding.md R48). -/
def digitOne : CharCode := 0x31#21

/-- The two valid digits; every other 21-bit value is an invalid character (30_encoding.md R48). -/
def isDigit (ch : CharCode) : Bool := decide (ch = digitZero) || decide (ch = digitOne)

/-- The lanes BitParser's loop reads: lane k when every lane left of it is a digit, since the first invalid lane
ends the loop (40_bitparser.md R60; log entry 9). -/
def lanesRead (c : Lanes) : List (Fin 32) :=
  (List.finRange 32).filter fun k => (c.toList.take k.val).all isDigit

/-- What a format TS operation reads: `op_i`, `len_i`, and lanes only when `n = 32` (30_encoding.md R42). -/
def stringReads (n : Nat) (c : Lanes) : List InPort :=
  .op :: .len :: if n = 32 then (lanesRead c).map .chr else []

/-- What a format TW operation reads (30_encoding.md R42). -/
def wordReads : List InPort := [.op, .bits]

/-- What the format TN operation reads (30_encoding.md R42, R44: "reads no operand"). -/
def noOperandReads : List InPort := [.op]

/-- Whether the host holds a port (70_reset_and_hazards.md R112). -/
def holds (h : Held) : InPort → Bool
  | .op => h.op_i
  | .bits => h.bits_i
  | .len => h.len_i
  | .chr k => h.chr_i[k]

/-- The string of a bit pattern: character k is `'1'` exactly when bit 31 - k is 1 (40_bitparser.md R65). -/
def digitsOf (w : Word) : Lanes :=
  Vector.ofFn fun k : Fin 32 => if w.getLsbD (31 - k.val) then digitOne else digitZero

/-- Signed-magnitude composition: the sign set, the magnitude bits kept, no multiplication (41_float_interpreter.md
R77). -/
def withSign (s : BitVec 1) (magnitude : BitVec 31) : Word := s ++ magnitude

end Sys2Proof.Machine
end

