-- ==== Sys2Proof/Machine/Ops.lean ====
section
/-! DEFINITION. The shared operations: completing a transaction, reporting an error (F32DEC's stand-in for taking an
exception: it has no traps, 60_exceptions.md R96, R103), issuing the host's next transaction, and the host's own
actions on the ports. -/

namespace Sys2Proof.Machine

/-- The outputs of `error E(info)`: the code, its information, and every other output 0 (00_scope.md R9, 10_state.md
R27, 60_exceptions.md R96). -/
def errorOutputs (e : ErrorCode) (info : CharCode) : Outputs :=
  { Outputs.zero with err_o := errCode e, errchr_o := info }

/-- Completes a transaction: defined only when the host has held every input the operation reads; all outputs appear
together (20_memory.md R39, 70_reset_and_hazards.md R110, R112). Nothing else of the state changes: the block stores
nothing (10_state.md R15). -/
def transact (reads : List InPort) (o : Outputs) (s : State) : Host.Outcome State Fault Refusal :=
  match s.presented with
  | none => .fault .inputsUndriven
  | some p => if reads.all (holds p.held) then .next { s with outputs := some o } else .refused .inputChanged

/-- The host drives a transaction onto the ports. The outputs are unreadable until it completes (60_exceptions.md
R105, 70_reset_and_hazards.md R110). -/
def hostPresent (p : Presentation) (s : State) : State := { s with presented := some p, outputs := none }

/-- The next transaction stands on the ports: the oldest pending one if the host has one, else the levels the host
keeps there, which are sampled again (20_memory.md R40, 10_state.md R31; log entries 3 and 4). -/
def issueNext (s : State) : State :=
  match s.pending with
  | [] => s
  | p :: rest => hostPresent p { s with pending := rest }

/-- The transaction the next step runs, if any. -/
def nextPresentation (s : State) : Option Presentation := (issueNext s).presented

/-- The host reads the outputs: a fault, not a value, outside a defined transaction (70_reset_and_hazards.md R110). -/
def readOutputs (s : State) : Except Fault Outputs :=
  match s.outputs with
  | some o => .ok o
  | none => .error .outputsUnreadable

/-- One input port driven to a new level by the host. -/
inductive PortChange where
  | op (v : BitVec 2)
  | bits (v : Word)
  | len (n : Nat)
  | chr (k : Fin 32) (v : CharCode)
  deriving DecidableEq, Repr

/-- The port a change is on. -/
def changedPort : PortChange → InPort
  | .op _ => .op
  | .bits _ => .bits
  | .len _ => .len
  | .chr k _ => .chr k

/-- The levels after a change. -/
def driveInput (d : PortChange) (p : Inputs) : Inputs :=
  match d with
  | .op v => { p with op_i := v }
  | .bits v => { p with bits_i := v }
  | .len n => { p with len_i := n }
  | .chr k v => { p with chr_i := p.chr_i.set k v }

/-- The flags after the host lets go of a port. -/
def release (port : InPort) (h : Held) : Held :=
  match port with
  | .op => { h with op_i := false }
  | .bits => { h with bits_i := false }
  | .len => { h with len_i := false }
  | .chr k => { h with chr_i := h.chr_i.set k false }

/-- The input ports an operation reads (30_encoding.md R42, 70_reset_and_hazards.md R112). -/
def readsOf : Instr → List InPort
  | .parse n c => stringReads n c
  | .decode _ => wordReads
  | .parseDecode n c => stringReads n c
  | .reserved => noOperandReads

/-- The host changes one input while a transaction stands on the ports. A change of an input the operation reads
leaves the outputs unreadable; inputs it does not read may change (70_reset_and_hazards.md R110, R112; log entry 10).
Driving the level a port already has is no change.
Before any transaction is presented, driving single ports does nothing: only a whole presentation counts as driving
the inputs. DESIGN CHOICE: R32 and R110 do not say when partly driven inputs count as driven (log entry 19). -/
def hostChange (d : PortChange) (s : State) : State :=
  match s.presented with
  | none => s
  | some p =>
    if driveInput d p.inputs = p.inputs then s
    else
      { s with
        presented := some { inputs := driveInput d p.inputs, held := release (changedPort d) p.held }
        outputs := if changedPort d ∈ readsOf (decodeOp p.inputs) then none else s.outputs }

end Sys2Proof.Machine
end

