-- ==== Sys2Proof/Machine/BitParser.lean ====
section
/-! DEFINITION. BitParser and the PARSE operation (40_bitparser.md). -/

namespace Sys2Proof.Machine

/-- `ParseError` (40_bitparser.md R56). -/
inductive ParseError where
  | wrongLength
  | invalidCharacter (ch : CharCode)
  deriving DecidableEq, Repr

/-- BitParser's loop from lane `k` on, `acc` the bits set so far (40_bitparser.md R60). -/
def parseLanes : Nat → Word → List CharCode → Except ParseError Word
  | _, acc, [] => .ok acc
  | k, acc, ch :: rest =>
    if ch = digitOne then parseLanes (k + 1) (acc ||| (1#32 <<< (31 - k))) rest
    else if ch = digitZero then parseLanes (k + 1) acc rest
    else .error (.invalidCharacter ch)

/-- BitParser as a whole: the length first, then the lanes from the left (40_bitparser.md R58 to R60). -/
def bitParser (n : Nat) (c : Lanes) : Except ParseError Word :=
  if n ≠ 32 then .error .wrongLength else parseLanes 0 0 c.toList

/-- The error outputs of a parse error (60_exceptions.md R97, R98). -/
def parseErrorOutputs : ParseError → Outputs
  | .wrongLength => errorOutputs .wrongLength 0
  | .invalidCharacter ch => errorOutputs .invalidCharacter ch

/-- The outputs of PARSE (40_bitparser.md R61): those it does not define stay 0. -/
def parseOutputs (n : Nat) (c : Lanes) : Outputs :=
  match bitParser n c with
  | .ok v => { Outputs.zero with word_o := v }
  | .error e => parseErrorOutputs e

/-- PARSE (40_bitparser.md R61). -/
def execParse (n : Nat) (c : Lanes) (s : State) : Host.Outcome State Fault Refusal :=
  transact (stringReads n c) (parseOutputs n c) s

end Sys2Proof.Machine
end

