-- ==== Sys2Proof/Machine/FloatInterpreter.lean ====
section
/-! DEFINITION. FloatInterpreter's outputs and the DECODE operation (41_float_interpreter.md). The abstract value and
the reference accumulation stand in Machine/Value.lean. -/

namespace Sys2Proof.Machine

/-- FloatInterpreter's result at the port, class by class from the fields: R72, R73, R74, R83 and R76. That it gives
back every non-NaN pattern (R81) is a statement, not this definition. -/
def interpretBits (w : Word) : Word :=
  match classOf w with
  | .zero => withSign (signField w) (0x00#8 ++ 0#23)
  | .subnormal => withSign (signField w) (0x00#8 ++ mantField w)
  | .infinity => withSign (signField w) (0xFF#8 ++ 0#23)
  | .nan => Config.nanBits
  | .normal => withSign (signField w) (charField w ++ mantField w)

/-- The outputs of a decoded pattern (41_float_interpreter.md R85). -/
def decodeOutputs (w : Word) : Outputs :=
  { word_o := w
    f32_o := interpretBits w
    sign_o := signField w
    char_o := charField w
    mant_o := mantField w
    class_o := classCode (classOf w)
    err_o := 0
    errchr_o := 0 }

/-- DECODE (41_float_interpreter.md R85). -/
def execDecode (w : Word) (s : State) : Host.Outcome State Fault Refusal :=
  transact wordReads (decodeOutputs w) s

end Sys2Proof.Machine
end

