-- ==== Sys2Proof/Machine/Pipeline.lean ====
section
/-! DEFINITION. The PARSE_DECODE operation (42_pipeline.md). -/

namespace Sys2Proof.Machine

/-- The outputs of PARSE_DECODE: a parse error stops the pipeline, else the parsed pattern is decoded (42_pipeline.md
R91, R92). -/
def parseDecodeOutputs (n : Nat) (c : Lanes) : Outputs :=
  match bitParser n c with
  | .ok w => decodeOutputs w
  | .error e => parseErrorOutputs e

/-- PARSE_DECODE (42_pipeline.md R91). -/
def execParseDecode (n : Nat) (c : Lanes) (s : State) : Host.Outcome State Fault Refusal :=
  transact (stringReads n c) (parseDecodeOutputs n c) s

end Sys2Proof.Machine
end

