-- ==== Sys2Proof/Machine/Reserved.lean ====
section
/-! DEFINITION. The reserved operation value (30_encoding.md R44). -/

namespace Sys2Proof.Machine

/-- RESERVED: reads no operand and reports RESERVED_OP, every other output 0; it is neither a hint nor a no-op
(30_encoding.md R44, 60_exceptions.md R99). -/
def execReserved (s : State) : Host.Outcome State Fault Refusal :=
  transact noOperandReads (errorOutputs .reservedOp 0) s

end Sys2Proof.Machine
end

