-- ==== Sys2Proof/Machine/Dispatch.lean ====
section
/-! DEFINITION. The dispatch: one arm per transaction of 30_encoding.md R43. -/

namespace Sys2Proof.Machine

def exec (i : Instr) (s : State) : Host.Outcome State Fault Refusal :=
  match i with
  | .parse n c => Sys2Proof.Machine.execParse n c s
  | .decode w => Sys2Proof.Machine.execDecode w s
  | .parseDecode n c => Sys2Proof.Machine.execParseDecode n c s
  | .reserved => Sys2Proof.Machine.execReserved s

end Sys2Proof.Machine
end

