-- ==== Sys2Proof/Machine/Step.lean ====
section
/-! DEFINITION. One step: one transaction (00_scope.md R3, 20_memory.md R39). -/

namespace Sys2Proof.Machine

/-- The host's next transaction stands on the ports (or the levels there are sampled again), its inputs are decoded,
and the operation runs. Before the host has driven anything the step faults (70_reset_and_hazards.md R110). -/
def step (s : State) : Host.Outcome State Fault Refusal :=
  match nextPresentation s with
  | none => .fault .inputsUndriven
  | some p =>
    match decode p.inputs with
    | .ok i => exec i (issueNext s)
    | .error _ => .refused .lengthTooWide

/-- `s` with the table word's transaction as the next one the host issues, every input held (log entry 3). -/
def State.withFetchWord (s : State) (nbits w : Nat) : State :=
  { s with pending := { inputs := Inputs.ofTableWord nbits w, held := Held.all } :: s.pending }

end Sys2Proof.Machine
end

