-- ==== Sys2Proof/Machine/Driver.lean ====
section
/-! DEFINITION. The host's side of a run: preparing string operands, the pseudo-instruction ARG, and ending a run at
the first parse error (60_exceptions.md R105, R106; 30_encoding.md R55; 10_state.md R21). The block does none of it. -/

namespace Sys2Proof.Machine

/-- The host removes every U+0020 space and no other character (60_exceptions.md R105, 90_conflicts.md C1). -/
def stripSpaces (arg : List CharCode) : List CharCode := arg.filter fun ch => ch ≠ 0x20#21

/-- `len_i` of a string of `n` characters: `n`, saturated at `2^LEN_W - 1` (10_state.md R21), that is
`min n (2 ^ lenW - 1)` (`saturateLength_eq_min`); the first test follows from `LEN_W >= 6`. -/
def saturateLength (n : Nat) : Nat := if n < 64 then n else min n (2 ^ Config.lenW - 1)

/-- The lanes of a string: lane k the character at index k of a 32-character string; for any other length the lanes
may hold anything, which is `fill` (10_state.md R21). -/
def lanesOf (fill : Lanes) (chars : List CharCode) : Lanes :=
  if h : chars.length = 32 then ⟨chars.toArray, by simpa using h⟩ else fill

/-- `PARSE "<chars>"` (30_encoding.md R55). -/
def parseString (fill : Lanes) (chars : List CharCode) : Instr :=
  .parse (saturateLength chars.length) (lanesOf fill chars)

/-- `PARSE_DECODE "<chars>"` (30_encoding.md R55). -/
def parseDecodeString (fill : Lanes) (chars : List CharCode) : Instr :=
  .parseDecode (saturateLength chars.length) (lanesOf fill chars)

/-- `ARG "<raw argument>"` (30_encoding.md R55). -/
def argInstr (fill : Lanes) (raw : List CharCode) : Instr := parseDecodeString fill (stripSpaces raw)

/-- A transaction as a host that keeps its duties presents it: every input held; ports the format does not list at
the levels of `rest` (60_exceptions.md R105). -/
def dutiful (rest : Inputs) (i : Instr) : Presentation := { inputs := encodeOver rest i, held := Held.all }

/-- How a host's run ended (60_exceptions.md R106). -/
inductive RunEnd where
  | completed
  | parseError (err : BitVec 2) (errchr : CharCode)
  | stopped
  deriving DecidableEq, Repr

/-- What the host has at the end of a run: the outputs of each transaction it issued, in order, and how it ended. -/
structure RunResult where
  outputs : List Outputs
  ended   : RunEnd
  deriving DecidableEq, Repr

/-- The operations whose nonzero `err_o` ends a run: PARSE and PARSE_DECODE (60_exceptions.md R105; log entry 14). -/
def isParse : Instr → Bool
  | .parse _ _ => true
  | .parseDecode _ _ => true
  | .decode _ => false
  | .reserved => false

/-- A run by a host that keeps its duties: it issues one transaction after another, reads the outputs of each, and
ends the run at the first parse error (60_exceptions.md R105, R106). -/
def hostRun (rest : Inputs) : List Instr → State → RunResult
  | [], _ => { outputs := [], ended := .completed }
  | i :: is, s =>
    match step { s with pending := [dutiful rest i] } with
    | .next s' =>
      match readOutputs s' with
      | .ok o =>
        if isParse i && decide (o.err_o ≠ 0) then
          { outputs := [o], ended := .parseError o.err_o o.errchr_o }
        else
          let r := hostRun rest is s'
          { r with outputs := o :: r.outputs }
      | .error _ => { outputs := [], ended := .stopped }
    | .fault _ => { outputs := [], ended := .stopped }
    | .refused _ => { outputs := [], ended := .stopped }

/-- One invocation of the source's program: an ARG transaction for each command-line argument (60_exceptions.md
R106). -/
def programRun (fill : Lanes) (rest : Inputs) (args : List (List CharCode)) : RunResult :=
  hostRun rest (args.map (argInstr fill)) State.reset

end Sys2Proof.Machine
end

