-- ==== Sys2Proof/Machine/Transaction.lean ====
section
/-! DEFINITION. The transaction as a function from inputs to outputs (10_state.md R28). -/

namespace Sys2Proof.Machine

/-- The outputs of a transaction (10_state.md R28). -/
def outputsOf : Instr → Outputs
  | .parse n c => parseOutputs n c
  | .decode w => decodeOutputs w
  | .parseDecode n c => parseDecodeOutputs n c
  | .reserved => errorOutputs .reservedOp 0

/-- F32DEC as the total function of 10_state.md R28: from the input levels and the fixed parameters alone. -/
def f32dec (p : Inputs) : Outputs := outputsOf (decodeOp p)

end Sys2Proof.Machine
end

