-- ==== Sys2Proof/Machine/Value.lean ====
section
/-! DEFINITION. The values FloatInterpreter computes, in exact arithmetic (41_float_interpreter.md R67, R72 to R77),
their binary32 encoding (30_encoding.md R46), and the reference accumulation (R79). -/

namespace Sys2Proof.Machine

/-- `Value` (41_float_interpreter.md R67): `q` is the magnitude of a nonzero finite value. -/
inductive Value where
  | zero (s : BitVec 1)
  | finite (s : BitVec 1) (q : Rat)
  | inf (s : BitVec 1)
  | nan
  deriving DecidableEq, Repr

/-- An unsigned result, before the sign is applied (R77). -/
inductive Magnitude where
  | zero
  | finite (q : Rat)
  | inf
  deriving DecidableEq, Repr

/-- Signed-magnitude composition: the sign is set and the magnitude kept, with no multiplication (R77). -/
def compose (s : BitVec 1) : Magnitude → Value
  | .zero => .zero s
  | .finite q => .finite s q
  | .inf => .inf s

/-- The magnitude of a subnormal, `m * 2^-149` (R73). -/
def subnormalMagnitude (m : BitVec 23) : Rat := (m.toNat : Rat) * (2 : Rat) ^ (-149 : Int)

/-- The magnitude of a normal, `(1 + m / 2^23) * 2^(c - 127)` (R76). -/
def normalMagnitude (c : BitVec 8) (m : BitVec 23) : Rat :=
  (1 + (m.toNat : Rat) / 2 ^ 23) * (2 : Rat) ^ ((c.toNat : Int) - 127)

/-- `interpret` (R67): the value of a bit pattern, from its fields by R71 to R77. -/
def interpret (w : Word) : Value :=
  match classOf w with
  | .zero => compose (signField w) .zero
  | .subnormal => compose (signField w) (.finite (subnormalMagnitude (mantField w)))
  | .infinity => compose (signField w) .inf
  | .nan => .nan
  | .normal => compose (signField w) (.finite (normalMagnitude (charField w) (mantField w)))

/-- The encoding of the magnitude `u * 2^-149`: `{0x00, u}` below 2^23, else `{c, m}` with
`u = (2^23 + m) * 2^(c - 1)`; none where no binary32 value has it (30_encoding.md R46). -/
def encUnits (u : Nat) : Option (BitVec 31) :=
  if u < 2 ^ 23 then some (0x00#8 ++ BitVec.ofNat 23 u)
  else
    let e := Nat.log2 u - 23
    if u % 2 ^ e = 0 ∧ e + 1 ≤ 254 then some (BitVec.ofNat 8 (e + 1) ++ BitVec.ofNat 23 (u / 2 ^ e)) else none

/-- The encoding of a positive magnitude: every binary32 magnitude is a whole number of `2^-149` (30_encoding.md
R46). -/
def encMagnitude (q : Rat) : Option (BitVec 31) :=
  let u := q * 2 ^ 149
  if 0 < u.num ∧ u.den = 1 then encUnits u.num.toNat else none

/-- `enc32` (30_encoding.md R46); none for NaN, whose output is `NAN_BITS` (R83), and for a magnitude that is no
binary32 value. -/
def enc32 : Value → Option Word
  | .zero s => some (withSign s 0)
  | .finite s q => (encMagnitude q).map (withSign s)
  | .inf s => some (withSign s (0xFF#8 ++ 0#23))
  | .nan => none

/-- A positive rational that is the magnitude of a binary32 value (R80). -/
def representable (q : Rat) : Bool := (encMagnitude q).isSome

/-- The reference accumulation's loop over mantissa bits `j - 1` down to 0, each binary32 operation followed by the
rounding `rnd` (R79). -/
def accumulate (rnd : Rat → Rat) (m : BitVec 23) : Nat → Rat → Rat → Rat
  | 0, _, acc => acc
  | j + 1, term, acc =>
    let half := rnd (term / 2)
    accumulate rnd m j half (if m.getLsbD j then rnd (acc + half) else acc)

/-- `normal_magnitude` of R79, in arithmetic that rounds by `rnd`. -/
def referenceNormal (rnd : Rat → Rat) (c : BitVec 8) (m : BitVec 23) : Rat :=
  let start := rnd ((2 : Rat) ^ ((c.toNat : Int) - 127))
  accumulate rnd m 23 start start

/-- The reference for case 2: the product `m * 2^-149` in arithmetic that rounds by `rnd` (R79). -/
def referenceSubnormal (rnd : Rat → Rat) (m : BitVec 23) : Rat :=
  rnd (rnd (m.toNat : Rat) * rnd ((2 : Rat) ^ (-149 : Int)))

/-- FloatInterpreter by the reference algorithm, in arithmetic that rounds by `rnd` (R78, R79). -/
def referenceInterpret (rnd : Rat → Rat) (w : Word) : Value :=
  match classOf w with
  | .zero => compose (signField w) .zero
  | .subnormal => compose (signField w) (.finite (referenceSubnormal rnd (mantField w)))
  | .infinity => compose (signField w) .inf
  | .nan => .nan
  | .normal => compose (signField w) (.finite (referenceNormal rnd (charField w) (mantField w)))

end Sys2Proof.Machine
end

