-- ==== Sys2Proof/Safety.lean ====
section
/-! DEFINITION. The terms the statements are written in: valid digits, NaN encodings, legal outputs, coherence of the
outputs with the inputs, and the invariant. Where a statement would only repeat a definition of the machine, the
spec's own pseudocode is written out again here, in another form. -/

namespace Sys2Proof.Machine

/-- A valid digit: 0x30 or 0x31 and nothing else (30_encoding.md R48). -/
def ValidDigit (ch : CharCode) : Prop := ch = 0x30#21 ∨ ch = 0x31#21

/-- The NaN patterns by their bits: `w[30:23] = 0xFF` and `w[22:0] != 0` (41_float_interpreter.md R75, 00_scope.md
R7). -/
def NanPattern (w : Word) : Prop := w.extractLsb 30 23 = 0xFF#8 ∧ w.extractLsb 22 0 ≠ 0#23

/-- The outputs of an error, every one written out (60_exceptions.md R96). -/
def reportedError (code : BitVec 2) (info : CharCode) : Outputs :=
  { word_o := 0, f32_o := 0, sign_o := 0, char_o := 0, mant_o := 0, class_o := 0, err_o := code, errchr_o := info }

/-- The outputs of a successful PARSE, every one written out (40_bitparser.md R61). -/
def parsedWord (v : Word) : Outputs :=
  { word_o := v, f32_o := 0, sign_o := 0, char_o := 0, mant_o := 0, class_o := 0, err_o := 0, errchr_o := 0 }

/-- The pseudocode of DECODE on the slices of `w`, with the class codes by number (41_float_interpreter.md R85, R71;
30_encoding.md R50): the result is `w` itself, or `NAN_BITS` for a NaN pattern. -/
def decodedBySlices (w : Word) : Outputs :=
  let c : BitVec 8 := w.extractLsb 30 23
  let m : BitVec 23 := w.extractLsb 22 0
  { word_o := w
    f32_o := if c = 0xFF#8 ∧ m ≠ 0#23 then Config.nanBits else w
    sign_o := w.extractLsb 31 31
    char_o := c
    mant_o := m
    class_o :=
      if c = 0#8 then (if m = 0#23 then 1 else 2)
      else if c = 0xFF#8 then (if m = 0#23 then 3 else 4)
      else 5
    err_o := 0
    errchr_o := 0 }

/-- `v` is the word of the lanes `str`: bit 31 - k is 1 exactly when lane k is `'1'` (40_bitparser.md R64). -/
def IsWordOf (str : Lanes) (v : Word) : Prop := ∀ k : Fin 32, v.getLsbD (31 - k.val) = decide (str[k] = 0x31#21)

/-- Every input the operation `i` reads is held (70_reset_and_hazards.md R112). -/
def heldFor (i : Instr) (h : Held) : Bool := (readsOf i).all (holds h)

/-- Two sets of levels agree on one input port. -/
def agreeAt (p q : Inputs) : InPort → Prop
  | .op => p.op_i = q.op_i
  | .bits => p.bits_i = q.bits_i
  | .len => p.len_i = q.len_i
  | .chr k => p.chr_i[k] = q.chr_i[k]

/-- No code that is never driven, no output an operation does not define, and a decoded pattern's fields, class and
result in agreement (10_state.md R25 to R27, 30_encoding.md R49, R50, 41_float_interpreter.md R81, R83, R90). -/
structure Outputs.Legal (o : Outputs) : Prop where
  classCode_driven : o.class_o ≤ 5
  errchr_only_invalid : o.err_o ≠ 2 → o.errchr_o = 0
  error_alone : o.err_o ≠ 0 → o.word_o = 0 ∧ o.class_o = 0
  undecoded : o.class_o = 0 → o.f32_o = 0 ∧ o.sign_o = 0 ∧ o.char_o = 0 ∧ o.mant_o = 0
  decoded : o.class_o ≠ 0 → (o.sign_o ++ (o.char_o ++ o.mant_o) : Word) = o.word_o
  nan_result : o.class_o = 4 → NanPattern o.word_o ∧ NanPattern o.f32_o
  exact_result : o.class_o ≠ 0 → o.class_o ≠ 4 → ¬ NanPattern o.word_o ∧ o.f32_o = o.word_o

/-- The outputs, where readable, are the function of the inputs on the ports, and those the operation reads have been
held (10_state.md R28, R31; 70_reset_and_hazards.md R112). -/
def State.Coherent (s : State) : Prop :=
  ∀ o, s.outputs = some o →
    ∃ p, s.presented = some p ∧ heldFor (decodeOp p.inputs) p.held = true ∧ o = f32dec p.inputs

/-- Every set of levels the host presents, now or later, is one the ports can carry (10_state.md section 2). -/
def State.PortsFit (s : State) : Prop :=
  (∀ p, s.presented = some p → p.inputs.wf = true) ∧ ∀ p ∈ s.pending, p.inputs.wf = true

/-- The invariant of the machine. -/
structure State.Inv (s : State) : Prop where
  coherent : s.Coherent
  portsFit : s.PortsFit

/-- The transactions of a run that its host issues: all up to and with the first PARSE or PARSE_DECODE that reports
an error (60_exceptions.md R106). -/
def issuedOf : List Instr → List Instr
  | [] => []
  | i :: is => if isParse i = true ∧ (outputsOf i).err_o ≠ 0 then [i] else i :: issuedOf is

/-- A rounding of binary32 arithmetic: any function that returns a representable value unchanged, whatever the
rounding mode (41_float_interpreter.md R80). -/
def FixesRepresentable (rnd : Rat → Rat) : Prop := ∀ q, representable q = true → rnd q = q

end Sys2Proof.Machine
end

