-- ==== Sys2Proof/Certificates/Slice0/Obligations.lean ====
section
/-! DEFINITION. The statements about F32DEC for the provers, from the numbered rules of spec/. -/

open Sys2Proof Sys2Proof.Machine

/-! ### Encoding -/

/-- 30_encoding.md R43: each of the four `op_i` values selects its row of the operation map, with the operands of the
row's format. -/
def Obligations.OperationSelectPicksItsRow : Prop :=
  ∀ p : Inputs, p.wf = true →
    (p.op_i = 0b00#2 → decode p = .ok (.parse p.len_i p.chr_i)) ∧
    (p.op_i = 0b01#2 → decode p = .ok (.decode p.bits_i)) ∧
    (p.op_i = 0b10#2 → decode p = .ok (.parseDecode p.len_i p.chr_i)) ∧
    (p.op_i = 0b11#2 → decode p = .ok .reserved)

/-- Words written out from the encoding (30_encoding.md R42, R43), one per row of the table, decode to the
transaction they stand for. The numbering above `op_i` is the model's own (log entry 5). -/
def Obligations.WrittenWordsDecode : Prop :=
  decodeTableWord 8 0b00 = some (.parse 0 (Vector.replicate 32 0)) ∧
  decodeTableWord 34 0b1100000011101000000000000000000001 = some (.decode 0xC0E80000#32) ∧
  decodeTableWord 8 0b10 = some (.parseDecode 0 (Vector.replicate 32 0)) ∧
  decodeTableWord 8 0b11 = some .reserved

/-- Decode and encode agree on every well-formed transaction, whatever stands on the ports its format does not list,
through the port levels and through the numbering of the ports as one word (log entry 5). -/
def Obligations.DecodeOfEncodeIsIdentity : Prop :=
  ∀ (rest : Inputs) (i : Instr) (nbits : Nat), i.wf = true → rest.wf = true → 2 ≤ nbits →
    (encodeOver rest i).toFrame < 2 ^ nbits →
      decode (encodeOver rest i) = .ok i ∧ decodeWord nbits (encodeOver rest i).toFrame = .ok i

/-- 30_encoding.md R54, the other direction: every set of input levels is the encoding of exactly the transaction it
decodes to. -/
def Obligations.EveryLevelSetIsAnEncoding : Prop :=
  ∀ (p : Inputs) (i : Instr), encodeOver p i = p ↔ decodeOp p = i

/-! ### The step -/

/-- A step runs the decoded transaction: of the oldest pending presentation, or of the levels the host keeps on the
ports; it faults where nothing is driven, and refuses a length no port carries (the model's choices: log entries 3, 4, 11,
13). -/
def Obligations.StepRunsTheDecodedTransaction : Prop :=
  (∀ (s : State) (p : Presentation) (rest : List Presentation) (i : Instr),
    s.pending = p :: rest → decode p.inputs = .ok i →
      step s = exec i { s with presented := some p, outputs := none, pending := rest }) ∧
  (∀ (s : State) (p : Presentation) (i : Instr),
    s.pending = [] → s.presented = some p → decode p.inputs = .ok i → step s = exec i s) ∧
  (∀ s : State, s.pending = [] → s.presented = none → step s = .fault .inputsUndriven) ∧
  (∀ (s : State) (p : Presentation), nextPresentation s = some p → 2 ^ Config.lenW ≤ p.inputs.len_i →
    step s = .refused .lengthTooWide)

/-- A transaction whose read inputs are held answers next, and its outputs are the function of its inputs alone
(10_state.md R28, 70_reset_and_hazards.md R112). Which transaction is the next is the model's queue and idle
re-sampling (log entries 3 and 4), and which inputs are read is the model's reading (log entry 9). -/
def Obligations.StepComputesTheTransactionFunction : Prop :=
  ∀ (s : State) (p : Presentation), nextPresentation s = some p → p.inputs.wf = true →
    heldFor (decodeOp p.inputs) p.held = true →
      step s = .next { issueNext s with outputs := some (f32dec p.inputs) }

/-- 10_state.md R28 and R3: two machines whose next transaction is the same end it alike, whatever came before.
Which transaction is the next is the model's choice (log entries 3 and 4). -/
def Obligations.NoValuePassesBetweenTransactions : Prop :=
  ∀ s t : State, nextPresentation s = nextPresentation t →
    (∀ s', step s = .next s' → ∃ t', step t = .next t' ∧ t'.outputs = s'.outputs ∧ t'.presented = s'.presented) ∧
    (∀ f, step s = .fault f → step t = .fault f) ∧
    (∀ r, step s = .refused r → step t = .refused r)

/-- 20_memory.md R39: presenting the same inputs again gives the same outputs, so a step that is taken again on the
levels it left changes nothing. That an idle step samples them again is the model's choice (log entry 4). -/
def Obligations.RepeatedTransactionChangesNothing : Prop :=
  ∀ s s' : State, step s = .next s' → s'.pending = [] → step s' = .next s'

/-- 20_memory.md R40: a step issues exactly the oldest pending transaction, keeps the order of the others, and leaves
it on the ports with its outputs driven. The queue is the model's choice (log entry 3). -/
def Obligations.StepIssuesOneTransactionInOrder : Prop :=
  ∀ s s' : State, step s = .next s' →
    s'.pending = s.pending.tail ∧ s'.presented = nextPresentation s ∧ s'.outputs ≠ none

/-- 70_reset_and_hazards.md R117: a run whose host holds its inputs completes, one step per transaction, and ends with
the outputs of its last transaction. The queue is the model's choice (log entry 3), and which inputs must be held is
the model's reading (log entry 9). -/
def Obligations.HeldRunCompletes : Prop :=
  ∀ s : State, (∀ p ∈ s.pending, p.inputs.wf = true ∧ heldFor (decodeOp p.inputs) p.held = true) →
    ∃ s', Sys2Proof.core.run s.pending.length s = .next s' ∧ s'.pending = [] ∧
      ∀ p, s.pending.getLast? = some p → s'.presented = some p ∧ s'.outputs = some (f32dec p.inputs)

/-! ### The operations -/

/-- PARSE completes with WRONG_LENGTH when `len_i != 32` whatever the lanes hold; with the leftmost invalid character;
or with the word of its lanes (40_bitparser.md R61). Each case needs only the inputs it reads to be held
(70_reset_and_hazards.md R112), and that the lanes right of the first invalid one are not read is the model's reading
of 40_bitparser.md R60 (log entry 9). -/
def Obligations.ParseResult : Prop :=
  ∀ (s : State) (p : Presentation) (n : Nat) (str : Lanes),
    s.presented = some p → p.held.op_i = true → p.held.len_i = true →
    (n ≠ 32 → exec (.parse n str) s = .next { s with outputs := some (reportedError 1 0) }) ∧
    (n = 32 → ∀ k : Fin 32, ¬ ValidDigit str[k] → (∀ j : Fin 32, j < k → ValidDigit str[j]) →
      (∀ j : Fin 32, j ≤ k → p.held.chr_i[j] = true) →
        exec (.parse n str) s = .next { s with outputs := some (reportedError 2 str[k]) }) ∧
    (n = 32 → (∀ k : Fin 32, ValidDigit str[k]) → (∀ k : Fin 32, p.held.chr_i[k] = true) →
      ∀ v : Word, IsWordOf str v → exec (.parse n str) s = .next { s with outputs := some (parsedWord v) })

/-- 41_float_interpreter.md R85: DECODE completes on every one of the 2^32 patterns, with the outputs of its
pseudocode. -/
def Obligations.DecodeResult : Prop :=
  ∀ (s : State) (p : Presentation) (w : Word),
    s.presented = some p → p.held.op_i = true → p.held.bits_i = true →
      exec (.decode w) s = .next { s with outputs := some (decodedBySlices w) }

/-- PARSE_DECODE completes with the errors of PARSE under the same conditions, every other output 0, and else with the
decoded outputs of the word of its lanes (42_pipeline.md R91, R92). Each case needs only the inputs it reads to be held
(70_reset_and_hazards.md R112), and that the lanes right of the first invalid one are not read is the model's reading
of 40_bitparser.md R60 (log entry 9). -/
def Obligations.ParseDecodeResult : Prop :=
  ∀ (s : State) (p : Presentation) (n : Nat) (str : Lanes),
    s.presented = some p → p.held.op_i = true → p.held.len_i = true →
    (n ≠ 32 → exec (.parseDecode n str) s = .next { s with outputs := some (reportedError 1 0) }) ∧
    (n = 32 → ∀ k : Fin 32, ¬ ValidDigit str[k] → (∀ j : Fin 32, j < k → ValidDigit str[j]) →
      (∀ j : Fin 32, j ≤ k → p.held.chr_i[j] = true) →
        exec (.parseDecode n str) s = .next { s with outputs := some (reportedError 2 str[k]) }) ∧
    (n = 32 → (∀ k : Fin 32, ValidDigit str[k]) → (∀ k : Fin 32, p.held.chr_i[k] = true) →
      ∀ v : Word, IsWordOf str v → exec (.parseDecode n str) s = .next { s with outputs := some (decodedBySlices v) })

/-- 30_encoding.md R44: the reserved value reads no operand, drives `err_o` 3 and every other output 0. -/
def Obligations.ReservedResult : Prop :=
  ∀ (s : State) (p : Presentation), s.presented = some p → p.held.op_i = true →
    exec .reserved s = .next { s with outputs := some (reportedError 3 0) }

/-- The frame of all four operations: only the outputs change (10_state.md R15, 60_exceptions.md R96). -/
def Obligations.OperationsChangeOnlyTheOutputs : Prop :=
  ∀ (i : Instr) (s s' : State), exec i s = .next s' →
    s'.presented = s.presented ∧ s'.pending = s.pending ∧ s'.outputs = some (outputsOf i)

/-- 10_state.md R27: an operation drives every output it does not define to 0, a transaction that ends in an error all
but `err_o` and `errchr_o`; no output is left undriven, and none keeps a value from before the transaction. -/
def Obligations.UndefinedOutputsAreZero : Prop :=
  ∀ (i : Instr) (s s' : State), exec i s = .next s' → ∃ o, s'.outputs = some o ∧
    (∀ t t', exec i t = .next t' → t'.outputs = some o) ∧
    (∀ n str, i = .parse n str → o.f32_o = 0 ∧ o.sign_o = 0 ∧ o.char_o = 0 ∧ o.mant_o = 0 ∧ o.class_o = 0) ∧
    (∀ w, i = .decode w → o.errchr_o = 0 ∧ o.err_o = 0) ∧
    (o.err_o ≠ 0 → o.word_o = 0 ∧ o.f32_o = 0 ∧ o.sign_o = 0 ∧ o.char_o = 0 ∧ o.mant_o = 0 ∧ o.class_o = 0)

/-- What the outputs of any transaction can be: legal codes, no partial result beside an error, fields, class and
result in agreement (10_state.md R25, R26, 30_encoding.md R49, R50, 41_float_interpreter.md R81, R83, R90). -/
def Obligations.EveryTransactionsOutputsAreLegal : Prop :=
  ∀ p : Inputs, (f32dec p).Legal

/-- 60_exceptions.md R100: which error a transaction reports, in the order RESERVED_OP, WRONG_LENGTH,
INVALID_CHARACTER, at most one, and none from DECODE. -/
def Obligations.ErrorPriority : Prop :=
  ∀ p : Inputs,
    (p.op_i = 0b11#2 → (f32dec p).err_o = 3) ∧
    (p.op_i = 0b01#2 → (f32dec p).err_o = 0) ∧
    (p.op_i = 0b00#2 ∨ p.op_i = 0b10#2 →
      (p.len_i ≠ 32 → (f32dec p).err_o = 1) ∧
      (p.len_i = 32 →
        ((f32dec p).err_o = 2 ↔ ∃ k : Fin 32, ¬ ValidDigit p.chr_i[k]) ∧
        ((f32dec p).err_o = 0 ↔ ∀ k : Fin 32, ValidDigit p.chr_i[k]) ∧
        ∀ k : Fin 32, ¬ ValidDigit p.chr_i[k] → (∀ j : Fin 32, j < k → ValidDigit p.chr_i[j]) →
          (f32dec p).errchr_o = p.chr_i[k]))

/-- 42_pipeline.md R94: PARSE_DECODE equals PARSE followed by DECODE. -/
def Obligations.ParseDecodeIsParseThenDecode : Prop :=
  ∀ (s sP : State) (n : Nat) (str : Lanes) (o : Outputs),
    exec (.parse n str) s = .next sP → sP.outputs = some o →
      (o.err_o ≠ 0 → exec (.parseDecode n str) s = .next sP) ∧
      (o.err_o = 0 → exec (.parseDecode n str) s = .next { s with outputs := some (outputsOf (.decode o.word_o)) })

/-! ### BitParser -/

/-- 40_bitparser.md R65: BitParser is a bijection between the valid strings and the 32-bit values; the string of a
value is its 32 binary digits, most significant first. -/
def Obligations.BitParserIsABijection : Prop :=
  (∀ (str : Lanes) (v : Word), bitParser 32 str = .ok v ↔
    (∀ k : Fin 32, str[k] = if v.getLsbD (31 - k.val) then 0x31#21 else 0x30#21)) ∧
  (∀ str : Lanes, (∃ v, bitParser 32 str = .ok v) ↔ ∀ k : Fin 32, ValidDigit str[k])

/-- The string of a pattern parses back to it, and PARSE_DECODE of that string is DECODE of the pattern
(95_test_vectors.md section 2.5; 42_pipeline.md R94, 40_bitparser.md R65). -/
def Obligations.DigitStringDecodesLikeItsWord : Prop :=
  ∀ (s : State) (p : Presentation) (w : Word), s.presented = some p → p.held = Held.all →
    exec (.parse 32 (digitsOf w)) s = .next { s with outputs := some (parsedWord w) } ∧
    exec (.parseDecode 32 (digitsOf w)) s = exec (.decode w) s

/-! ### FloatInterpreter -/

/-- 41_float_interpreter.md R71: the five cases are exclusive and cover everything, and case 5 is `1 <= c <= 254`;
the class codes number them in order. -/
def Obligations.ClassesPartitionThePatterns : Prop :=
  ∀ (c : BitVec 8) (m : BitVec 23),
    (classify c m = .zero ↔ c.toNat = 0 ∧ m.toNat = 0) ∧
    (classify c m = .subnormal ↔ c.toNat = 0 ∧ m.toNat ≠ 0) ∧
    (classify c m = .infinity ↔ c.toNat = 255 ∧ m.toNat = 0) ∧
    (classify c m = .nan ↔ c.toNat = 255 ∧ m.toNat ≠ 0) ∧
    (classify c m = .normal ↔ 1 ≤ c.toNat ∧ c.toNat ≤ 254) ∧
    (classCode .zero = 1 ∧ classCode .subnormal = 2 ∧ classCode .infinity = 3 ∧ classCode .nan = 4 ∧
      classCode .normal = 5)

/-- 41_float_interpreter.md R90: the field outputs of DECODE are the raw fields in every class, and together they are
the pattern. -/
def Obligations.FieldOutputsAreTheRawFields : Prop :=
  ∀ (s s' : State) (w : Word) (o : Outputs), exec (.decode w) s = .next s' → s'.outputs = some o →
    (o.sign_o ++ (o.char_o ++ o.mant_o) : Word) = w ∧ o.word_o = w ∧
    o.sign_o = w.extractLsb 31 31 ∧ o.char_o = w.extractLsb 30 23 ∧ o.mant_o = w.extractLsb 22 0

/-- 41_float_interpreter.md R86, "the canonical acceptance test": for all 2^32 patterns DECODE completes, with
`f32_o` the pattern itself, or class 4 and some NaN encoding where the pattern is a NaN. -/
def Obligations.DecodeRoundTrip : Prop :=
  ∀ (s : State) (p : Presentation) (w : Word),
    s.presented = some p → p.held.op_i = true → p.held.bits_i = true →
      ∃ o, exec (.decode w) s = .next { s with outputs := some o } ∧
        (¬ NanPattern w → o.f32_o = w ∧ o.class_o ≠ 4) ∧
        (NanPattern w → o.class_o = 4 ∧ NanPattern o.f32_o)

/-- 41_float_interpreter.md R83: `NAN_BITS` is a NaN encoding, and every NaN pattern, of either sign and any payload,
gives that one value. Nothing is said of which encoding it is. -/
def Obligations.NanPatternsGiveNanBits : Prop :=
  NanPattern Config.nanBits ∧
  ∀ (s s' : State) (w : Word) (o : Outputs), NanPattern w → exec (.decode w) s = .next s' → s'.outputs = some o →
    o.f32_o = Config.nanBits

/-- The parameter is as free as 00_scope.md R7 leaves it: every NaN encoding is the `NAN_BITS` of exactly one choice
of the free constants (log entry 6). -/
def Obligations.EveryNanEncodingIsAChoice : Prop :=
  ∀ b : Word, NanPattern b ↔ ∃! c : BitVec 1 × Fin 8388607, Config.nanEncoding c.1 c.2 = b

/-- 41_float_interpreter.md R67 and R81: the class-by-class result at the port is `enc32` of the exact value computed
from the fields, or `NAN_BITS` for NaN, no pattern is an error, and every non-NaN pattern is given back. -/
def Obligations.OutputEncodesTheExactValue : Prop :=
  ∀ w : Word,
    (outputsOf (.decode w)).f32_o = (enc32 (interpret w)).getD Config.nanBits ∧
    (outputsOf (.decode w)).err_o = 0 ∧
    (¬ NanPattern w → enc32 (interpret w) = some w ∧ (outputsOf (.decode w)).f32_o = w) ∧
    (interpret w = .nan ↔ NanPattern w)

/-- 30_encoding.md R46: `enc32` is the inverse of the value mapping, so a value with an encoding is the value of that
encoding, and has no other. -/
def Obligations.EncodingIsInverseOfTheValueMapping : Prop :=
  ∀ (v : Value) (b : Word), enc32 v = some b ↔ interpret b = v ∧ v ≠ .nan

/-- 41_float_interpreter.md R78 to R80: the source's accumulation, in binary32 arithmetic with ANY rounding that
returns representable values unchanged, gives the exact value for every pattern, so nothing rounds. That binary32
operations are such roundings is general knowledge (93_implementation_defined.md G4), PRESUMED by `FixesRepresentable`
(log entry 16). -/
def Obligations.ReferenceAccumulationNeverRounds : Prop :=
  ∀ rnd : Rat → Rat, FixesRepresentable rnd → ∀ w : Word, referenceInterpret rnd w = interpret w

/-- 41_float_interpreter.md R88: the ranges of the finite nonzero magnitudes, by class. -/
def Obligations.MagnitudeRanges : Prop :=
  ∀ (w : Word) (s : BitVec 1) (q : Rat), interpret w = .finite s q →
    (classOf w = .subnormal ∧ (2 : Rat) ^ (-149 : Int) ≤ q ∧
      q ≤ (1 - (2 : Rat) ^ (-23 : Int)) * (2 : Rat) ^ (-126 : Int)) ∨
    (classOf w = .normal ∧ (2 : Rat) ^ (-126 : Int) ≤ q ∧
      q ≤ (2 - (2 : Rat) ^ (-23 : Int)) * (2 : Rat) ^ (127 : Int))

/-- 41_float_interpreter.md R77: in every class but NaN the sign is set and the magnitude kept, so the two signs of a
pattern have one magnitude, and -0 is not +0. -/
def Obligations.SignIsComposedNotMultiplied : Prop :=
  ∀ low : BitVec 31, ¬ NanPattern (0#1 ++ low) →
    ∃ mag, (∀ sign : BitVec 1, interpret (sign ++ low) = compose sign mag) ∧ compose 0 mag ≠ compose 1 mag

/-- 41_float_interpreter.md R82 with R73: a subnormal pattern is neither flushed nor reported: DECODE completes with
the pattern itself as result, whose value is `m * 2^-149` with the pattern's sign. -/
def Obligations.SubnormalsAreNotFlushed : Prop :=
  ∀ (s : State) (p : Presentation) (w : Word),
    s.presented = some p → p.held.op_i = true → p.held.bits_i = true →
    w.extractLsb 30 23 = 0#8 → w.extractLsb 22 0 ≠ 0#23 →
      ∃ o, exec (.decode w) s = .next { s with outputs := some o } ∧ o.f32_o = w ∧ o.class_o = 2 ∧ o.err_o = 0 ∧
        o.f32_o ≠ 0x00000000#32 ∧ o.f32_o ≠ 0x80000000#32 ∧
        interpret o.f32_o =
          .finite (w.extractLsb 31 31) (((w.extractLsb 22 0).toNat : Rat) * (2 : Rat) ^ (-149 : Int))

/-! ### Reset and hazards -/

/-- 70_reset_and_hazards.md R110: before the host drives the inputs a read of the outputs faults. That a step, and exec
of any transaction, faults too where none is presented is the model's choice (log entry 11), not R110's words. -/
def Obligations.NothingReadableBeforeInputsAreDriven : Prop :=
  readOutputs State.reset = .error .outputsUnreadable ∧ step State.reset = .fault .inputsUndriven ∧
  ∀ (i : Instr) (s : State), s.presented = none → exec i s = .fault .inputsUndriven

/-- 70_reset_and_hazards.md R112: a presented transaction is refused exactly when an input its operation reads was not
held; for a string, the lanes read are those left of and with the first invalid one, and none when `len_i != 32` (the
model's reading of what is read: log entry 9). -/
def Obligations.RefusedExactlyWhenAReadInputChanged : Prop :=
  ∀ (s : State) (p : Presentation), s.presented = some p →
    (∀ w, exec (.decode w) s = .refused .inputChanged ↔ ¬ (p.held.op_i = true ∧ p.held.bits_i = true)) ∧
    (exec .reserved s = .refused .inputChanged ↔ ¬ p.held.op_i = true) ∧
    (∀ i n str, i = .parse n str ∨ i = .parseDecode n str →
      (exec i s = .refused .inputChanged ↔
        ¬ (p.held.op_i = true ∧ p.held.len_i = true ∧
          (n = 32 → ∀ k : Fin 32, (∀ j : Fin 32, j < k → ValidDigit str[j]) → p.held.chr_i[k] = true))))

/-- Inputs an operation does not read may hold any value: the outputs depend only on those it reads. Ports the format
does not list and lanes of a string of another length are not read (30_encoding.md R42, 10_state.md R21); nor are lanes
right of the first invalid one, by 40_bitparser.md R59 and R60 as the model reads them (log entry 9). -/
def Obligations.UnreadInputsDoNotMatter : Prop :=
  ∀ p q : Inputs, (∀ port ∈ readsOf (decodeOp p), agreeAt p q port) → f32dec p = f32dec q

/-- 70_reset_and_hazards.md R110, R112: presenting a transaction, or changing an input the operation on the ports
reads, leaves the outputs unreadable; changing one it does not read leaves them as they were (the model's reading: log entries 9 and 10). -/
def Obligations.ChangingAReadInputHidesTheOutputs : Prop :=
  (∀ (s : State) (p : Presentation), readOutputs (hostPresent p s) = .error .outputsUnreadable) ∧
  (∀ (s : State) (p : Presentation) (d : PortChange), s.presented = some p → driveInput d p.inputs ≠ p.inputs →
    (changedPort d ∈ readsOf (decodeOp p.inputs) → readOutputs (hostChange d s) = .error .outputsUnreadable) ∧
    (changedPort d ∉ readsOf (decodeOp p.inputs) → readOutputs (hostChange d s) = readOutputs s))

/-! ### Invariant -/

/-- The machine starts in the invariant. -/
def Obligations.ResetSatisfiesTheInvariant : Prop := State.reset.Inv

/-- Every step keeps the invariant: readable outputs are the function of the held inputs on the ports, and the ports
carry values of their widths. Which inputs are read is the model's reading (log entry 9). -/
def Obligations.StepKeepsTheInvariant : Prop :=
  ∀ s s' : State, s.Inv → step s = .next s' → s'.Inv

/-- So do the host's own actions on the ports, with levels the ports can carry (what a change does to the outputs, and
that single ports driven before any presentation stay undriven, are the model's choices: log entries 10 and 19). -/
def Obligations.HostActionsKeepTheInvariant : Prop :=
  ∀ s : State, s.Inv →
    (∀ p : Presentation, p.inputs.wf = true → (hostPresent p s).Inv) ∧
    (∀ d : PortChange, (∀ n, d = .len n → Config.lenFits n = true) → (hostChange d s).Inv)

/-! ### The host's run -/

/-- 60_exceptions.md R106: a run by a dutiful host issues its transactions in order up to and with the first parse
error, gets each one's outputs, and ends there with that error, or completes. -/
def Obligations.RunEndsAtTheFirstParseError : Prop :=
  ∀ (rest : Inputs) (is : List Instr) (s : State), rest.wf = true → (∀ i ∈ is, i.wf = true) →
    (hostRun rest is s).outputs = (issuedOf is).map outputsOf ∧
    (hostRun rest is s).ended =
      match (is.filter fun i => isParse i && decide ((outputsOf i).err_o ≠ 0)).head? with
      | some i => .parseError (outputsOf i).err_o (outputsOf i).errchr_o
      | none => .completed

/-- The host's string preparation (60_exceptions.md R105, 10_state.md R21): spaces removed and nothing else, the length
saturated at `2^LEN_W - 1` but never to 32, so an argument that has not 32 characters then is WRONG_LENGTH, and one
that has reaches the lanes in order. -/
def Obligations.ArgumentsReachTheParser : Prop :=
  ∀ (fill : Lanes) (raw : List CharCode),
    let kept := raw.filter fun ch => ch ≠ 0x20#21
    (argInstr fill raw).wf = true ∧
    (kept.length ≠ 32 → outputsOf (argInstr fill raw) = reportedError 1 0) ∧
    (kept.length = 32 → ∃ str : Lanes, argInstr fill raw = .parseDecode 32 str ∧ str.toList = kept) ∧
    saturateLength kept.length = min kept.length (2 ^ Config.lenW - 1)
end

