-- ==== Sys2Proof/Laws/Operands.lean ====
section
/-! SUPPORT. What the operand forms read. -/

namespace Sys2Proof.Machine

theorem isDigit_iff (ch : CharCode) : isDigit ch = true ↔ ch = 0x30#21 ∨ ch = 0x31#21 := by
  simp only [isDigit, Bool.or_eq_true, decide_eq_true_eq]
  rfl

/-- Lane `k` is read exactly when every lane left of it is a digit (40_bitparser.md R60; log entry 9). -/
theorem mem_lanesRead (c : Lanes) (k : Fin 32) :
    k ∈ lanesRead c ↔ ∀ j : Fin 32, j < k → isDigit (c.get j) = true := by
  simp only [lanesRead, List.mem_filter, List.mem_finRange, true_and, List.all_eq_true]
  constructor
  · intro h j hj
    refine h _ ?_
    rw [List.mem_take_iff_getElem]
    exact ⟨j.val, by simp; omega, by simp [Vector.get]⟩
  · intro h x hx
    obtain ⟨j, hj, rfl⟩ := List.mem_take_iff_getElem.1 hx
    have hj' : j < k.val := by simp at hj; omega
    simpa [Vector.get] using h ⟨j, hj'.trans k.isLt⟩ hj'

end Sys2Proof.Machine
end

