-- ==== Sys2Proof/Laws/BitParser.lean ====
section
/-! SUPPORT. What BitParser can answer (40_bitparser.md R58 to R60). -/

namespace Sys2Proof.Machine

theorem bitParser_of_wrong_length {n : Nat} (h : n ≠ 32) (c : Lanes) : bitParser n c = .error .wrongLength := by
  simp [bitParser, h]

theorem bitParser_of_length (c : Lanes) : bitParser 32 c = parseLanes 0 0 c.toList := by simp [bitParser]

/-- A digit is consumed, and sets its bit when it is `'1'`. -/
theorem parseLanes_digit (k : Nat) (acc : Word) {ch : CharCode} (h : isDigit ch = true) (rest : List CharCode) :
    parseLanes k acc (ch :: rest) =
      parseLanes (k + 1) (if ch = digitOne then acc ||| (1#32 <<< (31 - k)) else acc) rest := by
  rcases (isDigit_iff ch).1 h with rfl | rfl <;> simp [parseLanes, digitOne, digitZero]

/-- The first character that is no digit ends the loop and is the one reported. -/
theorem parseLanes_invalid (k : Nat) (acc : Word) {ch : CharCode} (h : isDigit ch = false) (rest : List CharCode) :
    parseLanes k acc (ch :: rest) = .error (.invalidCharacter ch) := by
  simp only [isDigit, Bool.or_eq_false_iff, decide_eq_false_iff_not] at h
  simp [parseLanes, h.1, h.2]

/-- The loop's two outcomes: every character a digit and a word, or the leftmost invalid character. -/
theorem parseLanes_cases (l : List CharCode) : ∀ (k : Nat) (acc : Word),
    (l.all isDigit = true ∧ ∃ v, parseLanes k acc l = .ok v) ∨
    (∃ pre ch post, l = pre ++ ch :: post ∧ pre.all isDigit = true ∧ isDigit ch = false ∧
      parseLanes k acc l = .error (.invalidCharacter ch)) := by
  induction l with
  | nil => exact fun k acc => .inl ⟨rfl, acc, rfl⟩
  | cons ch rest ih =>
    intro k acc
    rcases hd : isDigit ch with _ | _
    · exact .inr ⟨[], ch, rest, rfl, rfl, hd, parseLanes_invalid k acc hd rest⟩
    · rw [parseLanes_digit k acc hd]
      rcases ih (k + 1) (if ch = digitOne then acc ||| (1#32 <<< (31 - k)) else acc) with
        ⟨hall, hv⟩ | ⟨pre, bad, post, hl, hpre, hbad, he⟩
      · exact .inl ⟨by simp [hd, hall], hv⟩
      · exact .inr ⟨ch :: pre, bad, post, by simp [hl], by simp [hd, hpre], hbad, he⟩

end Sys2Proof.Machine
end

