-- ==== Sys2Proof/Laws/Config.lean ====
section
/-! SUPPORT. What every instance's parameters satisfy (00_scope.md R7). -/

namespace Sys2Proof.Config

theorem six_le_lenW : 6 ≤ lenW := Nat.le_add_right 6 lenWExcess

theorem sixtyFour_le_two_pow_lenW : 64 ≤ 2 ^ lenW :=
  Nat.pow_le_pow_right (n := 2) (by decide) six_le_lenW

/-- `lenFits` is the width test of the port `len_i`. -/
theorem lenFits_iff (n : Nat) : lenFits n = true ↔ n < 2 ^ lenW := by
  have := sixtyFour_le_two_pow_lenW
  simp only [lenFits, Bool.or_eq_true, decide_eq_true_eq]
  omega

theorem not_lenFits_iff (n : Nat) : lenFits n = false ↔ 2 ^ lenW ≤ n := by
  rw [← Bool.not_eq_true, lenFits_iff]; omega

end Sys2Proof.Config
end

