-- ==== Sys2Proof/Laws/Decode.lean ====
section
/-! SUPPORT. What the decoder answers. -/

namespace Sys2Proof

/-- The decoder answers exactly the operation the ports select, and only on levels the ports can carry. -/
theorem decode_eq_ok_iff (p : Inputs) (i : Instr) : decode p = .ok i ↔ p.wf = true ∧ decodeOp p = i := by
  unfold decode; split <;> simp_all

theorem decode_of_wf {p : Inputs} (h : p.wf = true) : decode p = .ok (decodeOp p) := by simp [decode, h]

theorem decode_eq_error_iff (p : Inputs) (e : DecodeError) :
    decode p = .error e ↔ p.wf = false ∧ e = .lengthTooWide := by
  unfold decode
  split
  · simp_all
  · simp_all only [Bool.not_eq_true, true_and, Except.error.injEq]
    exact eq_comm

/-- What the operation map selects is one of four transactions over the levels (30_encoding.md R43). -/
theorem decodeOp_cases (p : Inputs) :
    (p.op_i = 0b00#2 ∧ decodeOp p = .parse p.len_i p.chr_i) ∨
    (p.op_i = 0b01#2 ∧ decodeOp p = .decode p.bits_i) ∨
    (p.op_i = 0b10#2 ∧ decodeOp p = .parseDecode p.len_i p.chr_i) ∨
    (p.op_i = 0b11#2 ∧ decodeOp p = .reserved) := by
  have op_cases : ∀ op : BitVec 2, op = 0b00#2 ∨ op = 0b01#2 ∨ op = 0b10#2 ∨ op = 0b11#2 := by decide
  rcases op_cases p.op_i with h | h | h | h <;> simp [decodeOp, h]

/-- On levels the ports can carry, what is decoded is well formed. -/
theorem decodeOp_wf {p : Inputs} (h : p.wf = true) : (decodeOp p).wf = true := by
  rcases decodeOp_cases p with ⟨_, e⟩ | ⟨_, e⟩ | ⟨_, e⟩ | ⟨_, e⟩ <;> simp_all [Instr.wf, Inputs.wf]

theorem encodeOver_wf {rest : Inputs} {i : Instr} (hr : rest.wf = true) (hi : i.wf = true) :
    (encodeOver rest i).wf = true := by
  cases i <;> simp_all [encodeOver, Instr.wf, Inputs.wf]

end Sys2Proof
end

