-- ==== Sys2Proof/Laws/Driver.lean ====
section
/-! SUPPORT. The host's preparation of a string operand (10_state.md R21). -/

namespace Sys2Proof.Machine

theorem saturateLength_eq_min (n : Nat) : saturateLength n = min n (2 ^ Config.lenW - 1) := by
  have := Config.sixtyFour_le_two_pow_lenW
  unfold saturateLength
  split <;> omega

/-- Saturation never makes a wrong length right (40_bitparser.md R58). -/
theorem saturateLength_eq_32_iff (n : Nat) : saturateLength n = 32 ↔ n = 32 := by
  have := Config.sixtyFour_le_two_pow_lenW
  rw [saturateLength_eq_min]; omega

theorem lenFits_saturateLength (n : Nat) : Config.lenFits (saturateLength n) = true := by
  have := Config.sixtyFour_le_two_pow_lenW
  rw [Config.lenFits_iff, saturateLength_eq_min]; omega

theorem lanesOf_toList (fill : Lanes) {chars : List CharCode} (h : chars.length = 32) :
    (lanesOf fill chars).toList = chars := by simp [lanesOf, h]

end Sys2Proof.Machine
end

