-- ==== Sys2Proof/Laws/Ops.lean ====
section
/-! SUPPORT. What the shared operations can do. -/

namespace Sys2Proof.Machine

/-- Everything a transaction can do: it faults on undriven inputs, refuses where a read input was not held, and else
drives its outputs and changes nothing else. -/
theorem transact_cases (reads : List InPort) (o : Outputs) (s : State) :
    (s.presented = none ∧ transact reads o s = .fault .inputsUndriven) ∨
    (∃ p, s.presented = some p ∧ reads.all (holds p.held) = true ∧
      transact reads o s = .next { s with outputs := some o }) ∨
    (∃ p, s.presented = some p ∧ reads.all (holds p.held) = false ∧ transact reads o s = .refused .inputChanged) := by
  rcases h : s.presented with _ | p
  · simp [transact, h]
  · rcases hr : reads.all (holds p.held) with _ | _
    · refine .inr (.inr ⟨p, rfl, hr, ?_⟩)
      simp only [transact, h, hr]
      simp
    · refine .inr (.inl ⟨p, rfl, hr, ?_⟩)
      simp only [transact, h, hr]
      simp

/-- The conditions under which a transaction answers next, and the state it answers. -/
theorem transact_eq_next_iff (reads : List InPort) (o : Outputs) (s s' : State) :
    transact reads o s = .next s' ↔
      (∃ p, s.presented = some p ∧ reads.all (holds p.held) = true) ∧ s' = { s with outputs := some o } := by
  rcases transact_cases reads o s with ⟨h, e⟩ | ⟨p, h, hr, e⟩ | ⟨p, h, hr, e⟩
  · simp [e, h]
  · simp only [e, h, Option.some.injEq, exists_eq_left', hr, true_and, Host.Outcome.next.injEq]
    exact eq_comm
  · simp only [e, h, Option.some.injEq, exists_eq_left', hr, reduceCtorEq, Bool.false_eq_true, false_and]

theorem transact_of_held {reads : List InPort} {o : Outputs} {s : State} {p : Presentation}
    (h : s.presented = some p) (hr : reads.all (holds p.held) = true) :
    transact reads o s = .next { s with outputs := some o } :=
  (transact_eq_next_iff reads o s _).2 ⟨⟨p, h, hr⟩, rfl⟩

/-- What an error report drives, every output written out (60_exceptions.md R96). -/
theorem errorOutputs_eq (e : ErrorCode) (info : CharCode) :
    errorOutputs e info =
      { word_o := 0, f32_o := 0, sign_o := 0, char_o := 0, mant_o := 0, class_o := 0, err_o := errCode e,
        errchr_o := info } := rfl

theorem readOutputs_eq_ok_iff (s : State) (o : Outputs) : readOutputs s = .ok o ↔ s.outputs = some o := by
  rcases h : s.outputs with _ | o' <;> simp [readOutputs, h]

end Sys2Proof.Machine
end

