-- ==== Sys2Proof/Laws/PerInstr.lean ====
section
/-! SUPPORT. The statements made per instruction: the port levels of an instruction select it again. -/

namespace Sys2Proof.Laws.PortRoundTrip

/-- The levels that encode `i` decode to `i`, whatever stands on the ports its format does not list (30_encoding.md
R42, R43). -/
def Statement (i : Instr) : Prop := ∀ rest : Inputs, decodeOp (encodeOver rest i) = i

theorem parse (n : Nat) (c : Lanes) : Statement (.parse n c) := fun _ => rfl

theorem decode (w : Word) : Statement (.decode w) := fun _ => rfl

theorem parseDecode (n : Nat) (c : Lanes) : Statement (.parseDecode n c) := fun _ => rfl

theorem reserved : Statement .reserved := fun _ => rfl

end Sys2Proof.Laws.PortRoundTrip
end

