-- ==== Sys2Proof/Laws/State.lean ====
section
/-! SUPPORT. One lemma per field per named update of the state. -/

namespace Sys2Proof.Machine

@[simp] theorem reset_presented : State.reset.presented = none := rfl
@[simp] theorem reset_outputs : State.reset.outputs = none := rfl
@[simp] theorem reset_pending : State.reset.pending = [] := rfl

@[simp] theorem hostPresent_presented (p : Presentation) (s : State) : (hostPresent p s).presented = some p := rfl
@[simp] theorem hostPresent_outputs (p : Presentation) (s : State) : (hostPresent p s).outputs = none := rfl
@[simp] theorem hostPresent_pending (p : Presentation) (s : State) : (hostPresent p s).pending = s.pending := rfl

@[simp] theorem withFetchWord_pending (s : State) (nbits w : Nat) :
    (s.withFetchWord nbits w).pending = { inputs := Inputs.ofTableWord nbits w, held := Held.all } :: s.pending := rfl
@[simp] theorem withFetchWord_presented (s : State) (nbits w : Nat) :
    (s.withFetchWord nbits w).presented = s.presented := rfl
@[simp] theorem withFetchWord_outputs (s : State) (nbits w : Nat) :
    (s.withFetchWord nbits w).outputs = s.outputs := rfl

theorem issueNext_of_pending {s : State} {p : Presentation} {rest : List Presentation} (h : s.pending = p :: rest) :
    issueNext s = { s with presented := some p, outputs := none, pending := rest } := by
  simp [issueNext, hostPresent, h]

theorem issueNext_of_idle {s : State} (h : s.pending = []) : issueNext s = s := by simp [issueNext, h]

@[simp] theorem issueNext_pending (s : State) : (issueNext s).pending = s.pending.tail := by
  rcases h : s.pending with _ | ⟨p, rest⟩
  · simp [issueNext_of_idle h, h]
  · simp [issueNext_of_pending h]

@[simp] theorem issueNext_presented (s : State) : (issueNext s).presented = nextPresentation s := rfl

theorem nextPresentation_of_pending {s : State} {p : Presentation} {rest : List Presentation}
    (h : s.pending = p :: rest) : nextPresentation s = some p := by
  simp [nextPresentation, issueNext_of_pending h]

theorem nextPresentation_of_idle {s : State} (h : s.pending = []) : nextPresentation s = s.presented := by
  simp [nextPresentation, issueNext_of_idle h]

end Sys2Proof.Machine
end

