-- ==== Sys2Proof/Tests/Slice0.lean ====
section
/-! SUPPORT. The model's own tests: well-formedness and decoding smoke tests, vectors of 95_test_vectors.md, and a
concrete state for the hypotheses of every statement that has some. -/

namespace Sys2Proof.Tests

open Sys2Proof Sys2Proof.Machine

/-! ### Helpers -/

/-- A presentation with every input held. -/
def held (p : Inputs) : Presentation := { inputs := p, held := Held.all }

/-- A machine with one transaction on its ports. -/
def onPorts (p : Presentation) : State := hostPresent p State.reset

/-- A machine whose host has transactions to issue. -/
def issuing (ps : List Presentation) : State := { State.reset with pending := ps }

/-- The outputs after a next state, else none. -/
def outputsAfter : Host.Outcome State Fault Refusal → Option Outputs
  | .next s => s.outputs
  | .fault _ => none
  | .refused _ => none

/-- The digits of 0xB0FF55AA, the string of vector L1-1. -/
def goodString : Lanes := digitsOf 0xB0FF55AA

/-- Vector P-12: `'2'` on lane 0 and `'x'` on lane 31. -/
def badBothEnds : Lanes := (Vector.replicate 32 0x30#21).set 0 0x32#21 |>.set 31 0x78#21

/-- Vector P-13: `'x'` on the last lane only. -/
def badLastLane : Lanes := (Vector.replicate 32 0x30#21).set 31 0x78#21

/-! ### Well-formedness: what each check refuses -/

theorem test_wf_parse_length_too_wide_refused : (Instr.parse (2 ^ Config.lenW) goodString).wf = false :=
  (Config.not_lenFits_iff _).2 (Nat.le_refl _)

theorem test_wf_parseDecode_length_too_wide_refused :
    (Instr.parseDecode (2 ^ Config.lenW + 1) goodString).wf = false :=
  (Config.not_lenFits_iff _).2 (Nat.le_succ _)

theorem test_wf_inputs_length_too_wide_refused : { Inputs.zero with len_i := 2 ^ Config.lenW }.wf = false :=
  (Config.not_lenFits_iff _).2 (Nat.le_refl _)

theorem test_wf_longest_length_every_instance_has : (Instr.parse 63 goodString).wf = true := by decide

/-! ### Decoding: words written out from 30_encoding.md R42, R43 -/

theorem test_decode_op_00_is_PARSE : decodeTableWord 8 0b00 = some (.parse 0 (Vector.replicate 32 0)) := by decide

theorem test_decode_op_01_is_DECODE :
    decodeTableWord 40 0b1100000011101000000000000000000001 = some (.decode 0xC0E80000#32) := by decide

theorem test_decode_op_10_is_PARSE_DECODE :
    decodeTableWord 8 0b10 = some (.parseDecode 0 (Vector.replicate 32 0)) := by decide

theorem test_decode_op_11_is_RESERVED : decodeTableWord 8 0b11 = some .reserved := by decide

theorem test_decode_without_op_rejected : decodeWord 1 0b1 = .error .operationSelectMissing := by decide

theorem test_decode_length_too_wide_rejected :
    decode { Inputs.zero with len_i := 2 ^ Config.lenW } = .error .lengthTooWide := by
  rw [decode, test_wf_inputs_length_too_wide_refused]; rfl

theorem test_fetched_word_runs_first_after_reset :
    outputsAfter (step (State.reset.withFetchWord 8 0b11)) = some (reportedError 3 0) := by decide

/-! ### The operations: vectors of 95_test_vectors.md -/

/-- Vector L1-1. -/
theorem test_parse_source_example :
    outputsAfter (execParse 32 goodString (onPorts (held Inputs.zero))) = some (parsedWord 0xB0FF55AA) := by decide

/-- Vector P-12: the leftmost of two invalid characters. -/
theorem test_parse_leftmost_invalid :
    outputsAfter (execParse 32 badBothEnds (onPorts (held Inputs.zero))) = some (reportedError 2 0x32) := by decide

/-- Vector L1-2. -/
theorem test_decode_source_example :
    outputsAfter (execDecode 0xC0E80000 (onPorts (held Inputs.zero))) =
      some { word_o := 0xC0E80000, f32_o := 0xC0E80000, sign_o := 1, char_o := 0x81, mant_o := 0x680000,
             class_o := 5, err_o := 0, errchr_o := 0 } := by decide

/-- Section 2.1, the row `0xFFC00001`: a negative NaN with a payload gives `NAN_BITS`. -/
theorem test_decode_nan :
    outputsAfter (execDecode 0xFFC00001 (onPorts (held Inputs.zero))) =
      some { word_o := 0xFFC00001, f32_o := Config.nanBits, sign_o := 1, char_o := 0xFF, mant_o := 0x400001,
             class_o := 4, err_o := 0, errchr_o := 0 } := rfl

/-- Vector PD-2: the smallest subnormal, lane 31 to bit 0. -/
theorem test_parseDecode_smallest_subnormal :
    outputsAfter (execParseDecode 32 ((Vector.replicate 32 0x30#21).set 31 0x31#21) (onPorts (held Inputs.zero))) =
      some { Outputs.zero with word_o := 1, f32_o := 1, mant_o := 1, class_o := 2 } := by decide

/-- Vector PD-6: an invalid last lane stops the pipeline. -/
theorem test_parseDecode_error_stops :
    outputsAfter (execParseDecode 32 ((Vector.replicate 32 0x31#21).set 31 0x7A#21) (onPorts (held Inputs.zero))) =
      some (reportedError 2 0x7A) := by decide

/-- Vector X-1: the reserved value whatever stands on the other ports. -/
theorem test_reserved :
    outputsAfter (step (onPorts (held { op_i := 3, bits_i := 0x3F800000, len_i := 32, chr_i := goodString }))) =
      some (reportedError 3 0) := by decide

/-- Vector L1-2's value, -7.25. -/
theorem test_value_source_example : interpret 0xC0E80000 = .finite 1 (29 / 4) := by decide +kernel

/-- Vector L1-3's value, 2^-127. -/
theorem test_value_subnormal : interpret 0x00400000 = .finite 0 (1 / 2 ^ 127) := by decide +kernel

/-- The reference accumulation trace of 95_test_vectors.md section 2.1 ends at 7.25. -/
theorem test_reference_trace : referenceNormal id 0x81 0x680000 = 29 / 4 := by decide +kernel

/-- The reference choice of `NAN_BITS`, 0x7FC00000 (00_scope.md R7), is one of the choices. -/
theorem test_reference_nan_is_a_choice : Config.nanEncoding 0 4194303 = 0x7FC00000#32 := by decide

/-- Program 2 of 95_test_vectors.md: the second argument, "1010", ends the run. -/
theorem test_run_ends_at_first_error :
    (programRun goodString Inputs.zero
      [(digitsOf 0x7F800000).toList, [0x31, 0x30, 0x31, 0x30], (digitsOf 0x00400000).toList]) =
      { outputs := [decodedBySlices 0x7F800000, reportedError 1 0], ended := .parseError 1 0 } := by decide

/-! ### Witnesses: a concrete state and operands for the hypotheses of each statement -/

/-- DECODE 1.0 on the ports, everything held. -/
def decodeOne : Presentation := held { Inputs.zero with op_i := 1, bits_i := 0x3F800000 }

/-- PARSE of a valid string on the ports, everything held. -/
def parseGood : Presentation := held { Inputs.zero with op_i := 0, len_i := 32, chr_i := goodString }

/-- A host that has let go of `bits_i` and lane 31. -/
def letGo : Held := { Held.all with bits_i := false, chr_i := (Vector.replicate 32 true).set 31 false }

theorem witness_OperationSelectPicksItsRow :
    ∀ op : BitVec 2, { Inputs.zero with op_i := op, len_i := 63 }.wf = true := by decide

theorem witness_DecodeOfEncodeIsIdentity :
    (Instr.parseDecode 63 goodString).wf = true ∧ parseGood.inputs.wf = true ∧
      ∃ nbits, 2 ≤ nbits ∧ (encodeOver parseGood.inputs (.parseDecode 63 goodString)).toFrame < 2 ^ nbits := by
  refine ⟨by decide, by decide, ?_⟩
  generalize (encodeOver parseGood.inputs (.parseDecode 63 goodString)).toFrame = frame
  exact ⟨frame + 2, Nat.le_add_left 2 frame, Nat.lt_two_pow_self.trans_le (Nat.pow_le_pow_right (by decide) (by omega))⟩

theorem witness_StepRuns_pending :
    (issuing [decodeOne]).pending = decodeOne :: [] ∧ decode decodeOne.inputs = .ok (.decode 0x3F800000) := by decide

theorem witness_StepRuns_idle :
    (onPorts parseGood).pending = [] ∧ (onPorts parseGood).presented = some parseGood ∧
      decode parseGood.inputs = .ok (.parse 32 goodString) := by decide

theorem witness_StepRuns_undriven : State.reset.pending = [] ∧ State.reset.presented = none := by decide

theorem witness_StepRuns_too_wide :
    nextPresentation (issuing [held { Inputs.zero with len_i := 2 ^ Config.lenW }]) =
      some (held { Inputs.zero with len_i := 2 ^ Config.lenW }) := rfl

/-- The inputs DECODE reads are held while another, `len_i`, is not. -/
theorem witness_StepComputesTheTransactionFunction :
    nextPresentation (issuing [{ decodeOne with held := { Held.all with len_i := false } }]) =
        some { decodeOne with held := { Held.all with len_i := false } } ∧
      decodeOne.inputs.wf = true ∧
      heldFor (decodeOp decodeOne.inputs) { Held.all with len_i := false } = true := by decide

/-- Two machines with different pasts and the same next transaction, for each of the three outcomes. -/
theorem witness_NoValuePassesBetweenTransactions :
    nextPresentation (issuing [decodeOne]) = nextPresentation (onPorts decodeOne) ∧
      issuing [decodeOne] ≠ onPorts decodeOne ∧
      (∃ s', step (issuing [decodeOne]) = .next s') ∧
      nextPresentation State.reset = nextPresentation { State.reset with outputs := some Outputs.zero } ∧
      step State.reset = .fault .inputsUndriven ∧
      step (issuing [{ decodeOne with held := letGo }]) = .refused .inputChanged :=
  ⟨rfl, by decide, ⟨_, rfl⟩, rfl, rfl, rfl⟩

theorem witness_RepeatedTransactionChangesNothing :
    ∃ s', step (issuing [parseGood]) = .next s' ∧ s'.pending = [] := ⟨_, rfl, rfl⟩

theorem witness_StepIssuesOneTransactionInOrder :
    ∃ s', step (issuing [parseGood, decodeOne]) = .next s' := ⟨_, rfl⟩

theorem witness_HeldRunCompletes :
    (∀ p ∈ (issuing [parseGood, decodeOne]).pending,
      p.inputs.wf = true ∧ heldFor (decodeOp p.inputs) p.held = true) ∧
      (issuing [parseGood, decodeOne]).pending.getLast? = some decodeOne := by decide

/-- PARSE presented by the host that has let go of `bits_i` and lane 31. -/
def parseLetGo : Presentation := { parseGood with held := letGo }

/-- ParseResult and ParseDecodeResult, the length case at both neighbours of 32, with a lane not held. -/
theorem witness_ParseResult_length :
    (onPorts parseLetGo).presented = some parseLetGo ∧ parseLetGo.held.op_i = true ∧
      parseLetGo.held.len_i = true ∧ 31 ≠ 32 ∧ 33 ≠ 32 := by decide

/-- ParseResult and ParseDecodeResult, the character case on lane 0, with lane 31 not held. -/
theorem witness_ParseResult_first_lane :
    (onPorts parseLetGo).presented = some parseLetGo ∧ parseLetGo.held.op_i = true ∧
      parseLetGo.held.len_i = true ∧ ¬ ValidDigit badBothEnds[(0 : Fin 32)] ∧
      (∀ j : Fin 32, j < 0 → ValidDigit badBothEnds[j]) ∧
      ∀ j : Fin 32, j ≤ 0 → parseLetGo.held.chr_i[j] = true := by
  unfold ValidDigit; decide

/-- ParseResult and ParseDecodeResult, the character case on the last lane. -/
theorem witness_ParseResult_last_lane :
    (onPorts parseGood).presented = some parseGood ∧ parseGood.held.op_i = true ∧ parseGood.held.len_i = true ∧
      ¬ ValidDigit badLastLane[(31 : Fin 32)] ∧ (∀ j : Fin 32, j < 31 → ValidDigit badLastLane[j]) ∧
      ∀ j : Fin 32, j ≤ 31 → parseGood.held.chr_i[j] = true := by
  unfold ValidDigit; decide

/-- ParseResult and ParseDecodeResult, the word case, with its word. -/
theorem witness_ParseResult_word :
    (onPorts parseGood).presented = some parseGood ∧ parseGood.held.op_i = true ∧ parseGood.held.len_i = true ∧
      (∀ k : Fin 32, ValidDigit goodString[k]) ∧ (∀ k : Fin 32, parseGood.held.chr_i[k] = true) ∧
      IsWordOf goodString 0xB0FF55AA := by
  unfold ValidDigit IsWordOf; decide

theorem witness_DecodeResult :
    (onPorts decodeOne).presented = some decodeOne ∧ decodeOne.held.op_i = true ∧ decodeOne.held.bits_i = true := by
  decide

theorem witness_ReservedResult :
    (onPorts { decodeOne with held := letGo }).presented = some { decodeOne with held := letGo } ∧
      letGo.op_i = true := by decide

/-- OperationsChangeOnlyTheOutputs and UndefinedOutputsAreZero: each operation reaches a next state. -/
theorem witness_OperationsReachANextState :
    (∃ s', exec (.parse 32 goodString) (onPorts parseGood) = .next s') ∧
      (∃ s', exec (.decode 0) (onPorts parseGood) = .next s') ∧
      (∃ s', exec (.parseDecode 33 goodString) (onPorts parseGood) = .next s') ∧
      (∃ s', exec .reserved (onPorts parseGood) = .next s') := ⟨⟨_, rfl⟩, ⟨_, rfl⟩, ⟨_, rfl⟩, ⟨_, rfl⟩⟩

/-- UndefinedOutputsAreZero: an error, so its third clause speaks of something. -/
theorem witness_UndefinedOutputsAreZero_error : (outputsOf (.parse 31 goodString)).err_o ≠ 0 := by decide

/-- PARSE_DECODE levels with both end lanes invalid. -/
def badLevels : Inputs := { Inputs.zero with op_i := 2, len_i := 32, chr_i := badBothEnds }

/-- ErrorPriority: each `op_i`, each side of the length test, and the leftmost of two invalid lanes. -/
theorem witness_ErrorPriority :
    (badLevels.op_i = 0b00#2 ∨ badLevels.op_i = 0b10#2) ∧ badLevels.len_i = 32 ∧
      ¬ ValidDigit badLevels.chr_i[(0 : Fin 32)] ∧ (∀ j : Fin 32, j < 0 → ValidDigit badLevels.chr_i[j]) ∧
      ¬ ValidDigit badLevels.chr_i[(31 : Fin 32)] ∧
      { badLevels with len_i := 33 }.len_i ≠ 32 ∧ { badLevels with op_i := 3 }.op_i = 0b11#2 ∧
      { badLevels with op_i := 1 }.op_i = 0b01#2 := by
  unfold ValidDigit; decide

/-- ParseDecodeIsParseThenDecode, both cases. -/
theorem witness_ParseDecodeIsParseThenDecode :
    (∃ sP, exec (.parse 32 goodString) (onPorts parseGood) = .next sP ∧ sP.outputs = some (parsedWord 0xB0FF55AA)) ∧
      (∃ sP, exec (.parse 32 badLastLane) (onPorts parseGood) = .next sP ∧
        sP.outputs = some (reportedError 2 0x78)) := ⟨⟨_, rfl, by decide⟩, ⟨_, rfl, by decide⟩⟩

theorem witness_DigitStringDecodesLikeItsWord :
    (onPorts parseGood).presented = some parseGood ∧ parseGood.held = Held.all := by decide

theorem witness_FieldOutputsAreTheRawFields :
    ∃ s' o, exec (.decode 0xFFFFFFFF) (onPorts decodeOne) = .next s' ∧ s'.outputs = some o := ⟨_, _, rfl, rfl⟩

/-- DecodeRoundTrip: boundary patterns on both sides of its two clauses. -/
theorem witness_DecodeRoundTrip :
    (onPorts decodeOne).presented = some decodeOne ∧ decodeOne.held.op_i = true ∧ decodeOne.held.bits_i = true ∧
      ¬ NanPattern 0x7F800000 ∧ NanPattern 0x7F800001 ∧ ¬ NanPattern 0xFF7FFFFF ∧ NanPattern 0xFFFFFFFF := by
  unfold NanPattern; decide

theorem witness_NanPatternsGiveNanBits :
    NanPattern 0x7F800001 ∧
      ∃ s' o, exec (.decode 0x7F800001) (onPorts decodeOne) = .next s' ∧ s'.outputs = some o :=
  ⟨by unfold NanPattern; decide, _, _, rfl, rfl⟩

theorem witness_EveryNanEncodingIsAChoice : NanPattern 0x7F800001 ∧ NanPattern 0xFFFFFFFF := by
  unfold NanPattern; decide

theorem witness_OutputEncodesTheExactValue : ¬ NanPattern 0x7F7FFFFF ∧ NanPattern 0x7FFFFFFF := by
  unfold NanPattern; decide

theorem witness_EncodingIsInverseOfTheValueMapping :
    enc32 (.finite 1 (29 / 4)) = some 0xC0E80000#32 ∧ enc32 (.finite 0 (1 / 3)) = none := by decide +kernel

theorem witness_ReferenceAccumulationNeverRounds : FixesRepresentable id := fun _ _ => rfl

/-- A rounding that is no identity: it sends every value that is not representable to 0. -/
theorem witness_ReferenceAccumulationNeverRounds_rounding :
    FixesRepresentable (fun q => if representable q then q else 0) := fun q h => by simp [h]

/-- MagnitudeRanges: the ends of both ranges. -/
theorem witness_MagnitudeRanges :
    interpret 0x00000001 = .finite 0 ((2 : Rat) ^ (-149 : Int)) ∧
      interpret 0x807FFFFF = .finite 1 ((1 - (2 : Rat) ^ (-23 : Int)) * (2 : Rat) ^ (-126 : Int)) ∧
      interpret 0x00800000 = .finite 0 ((2 : Rat) ^ (-126 : Int)) ∧
      interpret 0xFF7FFFFF = .finite 1 ((2 - (2 : Rat) ^ (-23 : Int)) * (2 : Rat) ^ (127 : Int)) := by decide +kernel

theorem witness_SignIsComposedNotMultiplied :
    ¬ NanPattern (0#1 ++ 0#31) ∧ ¬ NanPattern (0#1 ++ 0x7F800000#31) := by
  unfold NanPattern; decide

theorem witness_SubnormalsAreNotFlushed :
    (onPorts decodeOne).presented = some decodeOne ∧ decodeOne.held.op_i = true ∧ decodeOne.held.bits_i = true ∧
      (0x00000001#32).extractLsb 30 23 = 0#8 ∧ (0x00000001#32).extractLsb 22 0 ≠ 0#23 ∧
      (0x807FFFFF#32).extractLsb 30 23 = 0#8 ∧ (0x807FFFFF#32).extractLsb 22 0 ≠ 0#23 := by decide

theorem witness_NothingReadableBeforeInputsAreDriven : State.reset.presented = none := rfl

/-- RefusedExactlyWhenAReadInputChanged: both sides of the equivalence occur. -/
theorem witness_RefusedExactlyWhenAReadInputChanged :
    exec (.decode 0) (onPorts { parseGood with held := letGo }) = .refused .inputChanged ∧
      exec (.parse 32 goodString) (onPorts { parseGood with held := letGo }) = .refused .inputChanged ∧
      (∃ s', exec (.parse 32 badBothEnds) (onPorts { parseGood with held := letGo }) = .next s') ∧
      exec .reserved (onPorts { parseGood with held := { letGo with op_i := false } }) = .refused .inputChanged :=
  ⟨rfl, rfl, ⟨_, rfl⟩, rfl⟩

/-- UnreadInputsDoNotMatter: levels that differ on every input DECODE does not read. -/
theorem witness_UnreadInputsDoNotMatter :
    (∀ port ∈ readsOf (decodeOp decodeOne.inputs),
        agreeAt decodeOne.inputs { decodeOne.inputs with len_i := 5, chr_i := goodString } port) ∧
      decodeOne.inputs ≠ { decodeOne.inputs with len_i := 5, chr_i := goodString } := by
  refine ⟨?_, by decide⟩
  intro port hport
  have reads : port = .op ∨ port = .bits := by simpa [decodeOp, decodeOne, held, readsOf, wordReads] using hport
  rcases reads with rfl | rfl <;> rfl

/-- UnreadInputsDoNotMatter: a string of another length with every lane different, an invalid lane 0 with lane 31
different, and RESERVED with every operand different. -/
theorem witness_UnreadInputsDoNotMatter_strings :
    (∀ port ∈ readsOf (.parse 31 goodString),
        agreeAt { Inputs.zero with len_i := 31, chr_i := goodString } { Inputs.zero with len_i := 31 } port) ∧
      decodeOp { Inputs.zero with len_i := 31, chr_i := goodString } = .parse 31 goodString ∧
      (∀ port ∈ readsOf (.parseDecode 32 badBothEnds), agreeAt badLevels
        { badLevels with bits_i := 7, chr_i := badBothEnds.set 31 0x79#21 } port) ∧
      decodeOp badLevels = .parseDecode 32 badBothEnds ∧
      (∀ port ∈ readsOf .reserved, agreeAt { Inputs.zero with op_i := 3 } { badLevels with op_i := 3 } port) ∧
      decodeOp { Inputs.zero with op_i := 3 } = .reserved := by
  have parse_reads : readsOf (.parse 31 goodString) = [.op, .len] := by decide
  have bad_reads : readsOf (.parseDecode 32 badBothEnds) = [.op, .len, .chr 0] := by decide
  refine ⟨?_, by decide, ?_, by decide, ?_, by decide⟩
  · rw [parse_reads]; simp [agreeAt]
  · rw [bad_reads]; simp [agreeAt, badLevels, badBothEnds]
  · simp [readsOf, noOperandReads, agreeAt]

/-- Log entry 19: a single port driven before any presentation leaves the inputs undriven. -/
theorem test_single_port_before_presentation : hostChange (.bits 0x3F800000) State.reset = State.reset := by decide

/-- ChangingAReadInputHidesTheOutputs, both cases. -/
theorem witness_ChangingAReadInputHidesTheOutputs :
    driveInput (.bits 0) decodeOne.inputs ≠ decodeOne.inputs ∧
      changedPort (.bits 0) ∈ readsOf (decodeOp decodeOne.inputs) ∧
      driveInput (.chr 31 7) decodeOne.inputs ≠ decodeOne.inputs ∧
      changedPort (.chr 31 7) ∉ readsOf (decodeOp decodeOne.inputs) := by decide

/-- StepKeepsTheInvariant and HostActionsKeepTheInvariant: a state in the invariant with readable outputs, reached by
a step. -/
theorem witness_InvariantWithReadableOutputs :
    State.Inv { presented := some decodeOne, outputs := some (f32dec decodeOne.inputs), pending := [parseGood] } ∧
      ∃ s', step { presented := some decodeOne, outputs := some (f32dec decodeOne.inputs), pending := [parseGood] } =
        .next s' := by
  refine ⟨⟨fun o ho => ⟨decodeOne, rfl, by decide, ?_⟩, fun p hp => ?_, fun p hp => ?_⟩, _, rfl⟩
  · simpa [eq_comm] using ho
  · cases hp; decide
  · obtain rfl : p = parseGood := by simpa using hp
    decide

theorem witness_HostActionsKeepTheInvariant : decodeOne.inputs.wf = true ∧ Config.lenFits 63 = true := by decide

theorem witness_RunEndsAtTheFirstParseError :
    Inputs.zero.wf = true ∧
      ∀ i ∈ [Instr.parse 32 goodString, .reserved, .parseDecode 4 goodString, .decode 0], i.wf = true := by decide

/-- ArgumentsReachTheParser: 32 digits and a space, and both neighbours of 32. -/
theorem witness_ArgumentsReachTheParser :
    ((0x20#21 :: goodString.toList).filter fun ch => ch ≠ 0x20#21).length = 32 ∧
      ((0x20#21 :: goodString.toList.tail).filter fun ch => ch ≠ 0x20#21).length ≠ 32 ∧
      ((0x30#21 :: goodString.toList).filter fun ch => ch ≠ 0x20#21).length ≠ 32 := by decide

end Sys2Proof.Tests
end

/-! ### What a step can do

Every operation is one `transact`, and a step has one equation per way it can end. -/

namespace Sys2Proof.Machine

/-- Every operation completes through `transact`: on the inputs of `readsOf`, with the outputs of `outputsOf`. -/
theorem exec_eq_transact (i : Instr) (s : State) : exec i s = transact (readsOf i) (outputsOf i) s := by
  cases i <;> rfl

theorem transact_of_not_held {reads : List InPort} {o : Outputs} {s : State} {p : Presentation}
    (h : s.presented = some p) (hr : reads.all (holds p.held) = false) :
    transact reads o s = .refused .inputChanged := by
  simp [transact, h, hr]

theorem step_of_decode {s : State} {p : Presentation} {i : Instr} (h : nextPresentation s = some p)
    (hd : decode p.inputs = .ok i) : step s = exec i (issueNext s) := by
  simp [step, h, hd]

theorem step_of_undriven {s : State} (h : nextPresentation s = none) : step s = .fault .inputsUndriven := by
  simp [step, h]

theorem step_of_not_wf {s : State} {p : Presentation} (h : nextPresentation s = some p)
    (hwf : p.inputs.wf = false) : step s = .refused .lengthTooWide := by
  have hd : decode p.inputs = .error .lengthTooWide := (decode_eq_error_iff _ _).2 ⟨hwf, rfl⟩
  simp [step, h, hd]

/-- On levels the ports can carry, a step is one transaction on the ports as issued. -/
theorem step_eq_transact {s : State} {p : Presentation} (h : nextPresentation s = some p)
    (hwf : p.inputs.wf = true) :
    step s = transact (readsOf (decodeOp p.inputs)) (f32dec p.inputs) (issueNext s) := by
  rw [step_of_decode h (decode_of_wf hwf), exec_eq_transact, f32dec]

theorem step_of_held {s : State} {p : Presentation} (h : nextPresentation s = some p) (hwf : p.inputs.wf = true)
    (hh : heldFor (decodeOp p.inputs) p.held = true) :
    step s = .next { issueNext s with outputs := some (f32dec p.inputs) } := by
  rw [step_eq_transact h hwf, transact_of_held ((issueNext_presented s).trans h) hh]

theorem step_of_not_held {s : State} {p : Presentation} (h : nextPresentation s = some p)
    (hwf : p.inputs.wf = true) (hh : heldFor (decodeOp p.inputs) p.held = false) :
    step s = .refused .inputChanged := by
  rw [step_eq_transact h hwf, transact_of_not_held ((issueNext_presented s).trans h) hh]

/-- Everything a step can do, with the condition on the next presentation under which it does it. -/
theorem step_cases (s : State) :
    (nextPresentation s = none ∧ step s = .fault .inputsUndriven) ∨
    (∃ p, nextPresentation s = some p ∧ p.inputs.wf = false ∧ step s = .refused .lengthTooWide) ∨
    (∃ p, nextPresentation s = some p ∧ p.inputs.wf = true ∧ heldFor (decodeOp p.inputs) p.held = false ∧
      step s = .refused .inputChanged) ∨
    (∃ p, nextPresentation s = some p ∧ p.inputs.wf = true ∧ heldFor (decodeOp p.inputs) p.held = true ∧
      step s = .next { issueNext s with outputs := some (f32dec p.inputs) }) := by
  rcases h : nextPresentation s with _ | p
  · exact .inl ⟨rfl, step_of_undriven h⟩
  · rcases hwf : p.inputs.wf with _ | _
    · exact .inr (.inl ⟨p, rfl, hwf, step_of_not_wf h hwf⟩)
    · rcases hh : heldFor (decodeOp p.inputs) p.held with _ | _
      · exact .inr (.inr (.inl ⟨p, rfl, hwf, hh, step_of_not_held h hwf hh⟩))
      · exact .inr (.inr (.inr ⟨p, rfl, hwf, hh, step_of_held h hwf hh⟩))

/-- Settles O7: which of its cases a step takes, and the outputs and ports it answers with, depend on the next
presentation alone. -/
theorem noValuePassesBetweenTransactions : Obligations.NoValuePassesBetweenTransactions := by
  intro s t hst
  rcases step_cases s with ⟨h, hs⟩ | ⟨p, h, hwf, hs⟩ | ⟨p, h, hwf, hh, hs⟩ | ⟨p, h, hwf, hh, hs⟩ <;>
    rw [hst] at h
  · have ht := step_of_undriven h
    simp [hs, ht]
  · have ht := step_of_not_wf h hwf
    simp [hs, ht]
  · have ht := step_of_not_held h hwf hh
    simp [hs, ht]
  · have ht := step_of_held h hwf hh
    simp [hs, ht, hst]

/-- Settles O5: each clause is the step's equation for a queue that is not empty, an idle host, undriven inputs or a
length that does not fit. -/
theorem stepRunsTheDecodedTransaction : Obligations.StepRunsTheDecodedTransaction := by
  refine ⟨fun s p rest i hq hd => ?_, fun s p i hq hp hd => ?_, fun s hq hp => ?_, fun s p h hlen => ?_⟩
  · rw [step_of_decode (nextPresentation_of_pending hq) hd, issueNext_of_pending hq]
  · rw [step_of_decode ((nextPresentation_of_idle hq).trans hp) hd, issueNext_of_idle hq]
  · exact step_of_undriven ((nextPresentation_of_idle hq).trans hp)
  · exact step_of_not_wf h ((Config.not_lenFits_iff _).2 hlen)

end Sys2Proof.Machine

/-! ### Words by their fields

A word and its three fields determine each other, and a NaN encoding by its fields. -/

namespace Sys2Proof.Machine

/-- A word is the concatenation of a sign, a characteristic and a mantissa exactly when these are its three slices
(41_float_interpreter.md R68 to R70). -/
theorem append_fields_eq_iff (sign : BitVec 1) (c : BitVec 8) (m : BitVec 23) (w : Word) :
    sign ++ (c ++ m) = w ↔ w.extractLsb 31 31 = sign ∧ w.extractLsb 30 23 = c ∧ w.extractLsb 22 0 = m := by
  constructor
  · rintro rfl
    refine ⟨?_, ?_, ?_⟩ <;> ext i hi <;> grind
  · rintro ⟨rfl, rfl, rfl⟩
    ext i hi
    grind

end Sys2Proof.Machine

namespace Sys2Proof.Config
open Sys2Proof.Machine

/-- The words `nanEncoding` gives, by their slices: the mantissa is the choice plus one, so it is never 0. -/
theorem nanEncoding_eq_iff (sign : BitVec 1) (pred : Fin 8388607) (b : Word) :
    nanEncoding sign pred = b ↔
      b.extractLsb 31 31 = sign ∧ b.extractLsb 30 23 = 0xFF#8 ∧ (b.extractLsb 22 0).toNat = pred.val + 1 := by
  have mant_iff : b.extractLsb 22 0 = BitVec.ofNat 23 (pred.val + 1) ↔
      (b.extractLsb 22 0).toNat = pred.val + 1 := by
    rw [← BitVec.toNat_inj, BitVec.toNat_ofNat, Nat.mod_eq_of_lt (by omega)]
  rw [nanEncoding, append_fields_eq_iff, mant_iff]

theorem nanPattern_nanEncoding (sign : BitVec 1) (pred : Fin 8388607) : NanPattern (nanEncoding sign pred) := by
  obtain ⟨-, hc, hm⟩ := (nanEncoding_eq_iff sign pred _).1 rfl
  refine ⟨hc, fun h0 => ?_⟩
  rw [h0] at hm
  simp at hm

/-- Settles O26: the sign choice is the word's sign, and the mantissa choice its nonzero mantissa less one. -/
theorem everyNanEncodingIsAChoice : Obligations.EveryNanEncodingIsAChoice := by
  intro b
  constructor
  · rintro ⟨hc, hm⟩
    have mant_pos : (b.extractLsb 22 0).toNat ≠ 0 := fun h => hm (BitVec.eq_of_toNat_eq h)
    have mant_lt : (b.extractLsb 22 0).toNat < 2 ^ 23 := (b.extractLsb 22 0).isLt
    refine ⟨(b.extractLsb 31 31, ⟨(b.extractLsb 22 0).toNat - 1, by omega⟩), ?_, ?_⟩
    · exact (nanEncoding_eq_iff _ _ _).2 ⟨rfl, hc, by simp only; omega⟩
    · rintro ⟨sign, pred⟩ h
      obtain ⟨hs, -, hp⟩ := (nanEncoding_eq_iff sign pred b).1 h
      exact Prod.ext hs.symm (Fin.ext (by simp only; omega))
  · rintro ⟨c, rfl, -⟩
    exact nanPattern_nanEncoding c.1 c.2

end Sys2Proof.Config

/-! ### What is read, and what a change leaves alone

An operation depends on the ports it reads: on levels that agree there it reads the same ports and gives the same
outputs. -/

namespace Sys2Proof.Machine

/-- The loop stops at the first invalid character, so it depends on each character only when all left of it are digits
(40_bitparser.md R60). -/
theorem parseLanes_congr (l l' : List CharCode) (k : Nat) (acc : Word)
    (h : ∀ i : Nat, (l.take i).all isDigit = true → l[i]? = l'[i]?) : parseLanes k acc l = parseLanes k acc l' := by
  induction l generalizing l' k acc with
  | nil =>
    have hnil : l' = [] := by simpa using (h 0 rfl).symm
    rw [hnil]
  | cons ch rest ih =>
    have head_eq : some ch = l'[0]? := h 0 rfl
    cases l' with
    | nil => simp at head_eq
    | cons ch' rest' =>
      obtain rfl : ch = ch' := by simpa using head_eq
      rcases hd : isDigit ch with _ | _
      · rw [parseLanes_invalid k acc hd, parseLanes_invalid k acc hd]
      · rw [parseLanes_digit k acc hd, parseLanes_digit k acc hd]
        exact ih _ _ _ fun i hi => by simpa using h (i + 1) (by simp [hd, hi])

theorem bitParser_congr {str str' : Lanes} (h : ∀ k ∈ lanesRead str, str[k] = str'[k]) :
    bitParser 32 str = bitParser 32 str' := by
  rw [bitParser_of_length, bitParser_of_length]
  refine parseLanes_congr _ _ _ _ fun i hi => ?_
  by_cases hlt : i < 32
  · have lane_eq := h ⟨i, hlt⟩ (by simpa [lanesRead] using hi)
    simpa [hlt] using lane_eq
  · simp [hlt]

/-- Whether a lane is read is decided by lanes that are read, so lanes that agree with `str` there read no others. -/
theorem mem_lanesRead_of_agree {str str' : Lanes} (h : ∀ k ∈ lanesRead str, str[k] = str'[k]) (k : Fin 32)
    (hk : k ∈ lanesRead str') : k ∈ lanesRead str := by
  induction k using WellFoundedLT.induction with
  | ind k ih =>
    rw [mem_lanesRead] at hk ⊢
    intro j hj
    have j_read : j ∈ lanesRead str :=
      ih j hj ((mem_lanesRead str' j).2 fun i hi => hk i (hi.trans hj))
    have lane_eq : str.get j = str'.get j := h j j_read
    rw [lane_eq]
    exact hk j hj

theorem mem_stringReads (n : Nat) (str : Lanes) (port : InPort) :
    port ∈ stringReads n str ↔ port = .op ∨ port = .len ∨ n = 32 ∧ ∃ k ∈ lanesRead str, port = .chr k := by
  by_cases hn : n = 32 <;> simp [stringReads, hn, eq_comm]

theorem op_mem_readsOf (i : Instr) : .op ∈ readsOf i := by
  cases i <;> simp [readsOf, stringReads, wordReads, noOperandReads]

/-- Strings that agree on what the first one reads are parsed alike, and the second reads nothing else. -/
theorem string_congr {n : Nat} {str str' : Lanes} (h : ∀ k, .chr k ∈ stringReads n str → str[k] = str'[k]) :
    bitParser n str = bitParser n str' ∧ ∀ port ∈ stringReads n str', port ∈ stringReads n str := by
  by_cases hn : n = 32
  · subst hn
    have lanes_eq : ∀ k ∈ lanesRead str, str[k] = str'[k] := fun k hk => h k (by simp [mem_stringReads, hk])
    refine ⟨bitParser_congr lanes_eq, fun port hport => ?_⟩
    rw [mem_stringReads] at hport ⊢
    obtain hop | hlen | ⟨-, k, hk, hchr⟩ := hport
    · exact .inl hop
    · exact .inr (.inl hlen)
    · exact .inr (.inr ⟨rfl, k, mem_lanesRead_of_agree lanes_eq k hk, hchr⟩)
  · simp [bitParser_of_wrong_length hn, stringReads, hn]

/-- Levels that agree on the ports the operation reads give the same outputs, and their operation reads no other port
(30_encoding.md R42, 40_bitparser.md R60; log entry 9). -/
theorem f32dec_congr {p q : Inputs} (h : ∀ port ∈ readsOf (decodeOp p), agreeAt p q port) :
    f32dec p = f32dec q ∧ ∀ port ∈ readsOf (decodeOp q), port ∈ readsOf (decodeOp p) := by
  have op_eq : p.op_i = q.op_i := h .op (op_mem_readsOf _)
  unfold f32dec
  rcases decodeOp_cases p with ⟨hop, e⟩ | ⟨hop, e⟩ | ⟨hop, e⟩ | ⟨hop, e⟩ <;> rw [e] at h ⊢ <;> rw [op_eq] at hop
  · have len_eq : p.len_i = q.len_i := h .len (by simp [readsOf, mem_stringReads])
    have eq : decodeOp q = .parse p.len_i q.chr_i := by simp [decodeOp, hop, len_eq]
    obtain ⟨parse_eq, reads⟩ := string_congr fun k hk => h (.chr k) hk
    rw [eq]
    exact ⟨by simp [outputsOf, parseOutputs, parse_eq], reads⟩
  · have bits_eq : p.bits_i = q.bits_i := h .bits (by simp [readsOf, wordReads])
    have eq : decodeOp q = .decode p.bits_i := by simp [decodeOp, hop, bits_eq]
    simp [eq]
  · have len_eq : p.len_i = q.len_i := h .len (by simp [readsOf, mem_stringReads])
    have eq : decodeOp q = .parseDecode p.len_i q.chr_i := by simp [decodeOp, hop, len_eq]
    obtain ⟨parse_eq, reads⟩ := string_congr fun k hk => h (.chr k) hk
    rw [eq]
    exact ⟨by simp [outputsOf, parseDecodeOutputs, parse_eq], reads⟩
  · have eq : decodeOp q = .reserved := by simp [decodeOp, hop]
    simp [eq]

/-- A change of one port leaves the levels on the others. -/
theorem agreeAt_driveInput {d : PortChange} {port : InPort} (p : Inputs) (h : port ≠ changedPort d) :
    agreeAt p (driveInput d p) port := by
  cases d with
  | op v =>
    cases port with
    | op => exact absurd rfl h
    | bits | len | chr j => rfl
  | bits v =>
    cases port with
    | bits => exact absurd rfl h
    | op | len | chr j => rfl
  | len n =>
    cases port with
    | len => exact absurd rfl h
    | op | bits | chr j => rfl
  | chr k v =>
    cases port with
    | chr j =>
      have lane_ne : k.val ≠ j.val := fun e => h (congrArg InPort.chr (Fin.ext e.symm))
      exact (Vector.getElem_set_ne k.isLt j.isLt lane_ne).symm
    | op | bits | len => rfl

/-- Letting go of one port leaves the others held. -/
theorem holds_release {port other : InPort} (hld : Held) (h : other ≠ port) :
    holds (release port hld) other = holds hld other := by
  cases port with
  | op =>
    cases other with
    | op => exact absurd rfl h
    | bits | len | chr j => rfl
  | bits =>
    cases other with
    | bits => exact absurd rfl h
    | op | len | chr j => rfl
  | len =>
    cases other with
    | len => exact absurd rfl h
    | op | bits | chr j => rfl
  | chr k =>
    cases other with
    | chr j =>
      have lane_ne : k.val ≠ j.val := fun e => h (congrArg InPort.chr (Fin.ext e.symm))
      exact Vector.getElem_set_ne k.isLt j.isLt lane_ne
    | op | bits | len => rfl

theorem driveInput_wf {d : PortChange} {p : Inputs} (hp : p.wf = true)
    (hd : ∀ n, d = .len n → Config.lenFits n = true) : (driveInput d p).wf = true := by
  cases d with
  | len n => exact hd n rfl
  | op v => exact hp
  | bits v => exact hp
  | chr k v => exact hp

/-- A change of a port the operation does not read changes neither the outputs nor that every input read is held
(70_reset_and_hazards.md R112; log entry 10). -/
theorem unread_change {d : PortChange} {p : Presentation} (hd : changedPort d ∉ readsOf (decodeOp p.inputs)) :
    f32dec p.inputs = f32dec (driveInput d p.inputs) ∧
      (heldFor (decodeOp p.inputs) p.held = true →
        heldFor (decodeOp (driveInput d p.inputs)) (release (changedPort d) p.held) = true) := by
  have other_port : ∀ port ∈ readsOf (decodeOp p.inputs), port ≠ changedPort d := fun port hport e => hd (e ▸ hport)
  obtain ⟨outputs_eq, reads⟩ := f32dec_congr fun port hport => agreeAt_driveInput p.inputs (other_port port hport)
  refine ⟨outputs_eq, fun hh => ?_⟩
  rw [heldFor, List.all_eq_true] at hh ⊢
  intro port hport
  rw [holds_release p.held (other_port port (reads port hport))]
  exact hh port (reads port hport)

end Sys2Proof.Machine

/-! ### The invariant

Each part of the invariant has a rule per action on the state. -/

namespace Sys2Proof.Machine

/-- The condition under which a step answers next, and the state it answers. -/
theorem step_eq_next_iff (s s' : State) :
    step s = .next s' ↔ ∃ p, nextPresentation s = some p ∧ p.inputs.wf = true ∧
      heldFor (decodeOp p.inputs) p.held = true ∧ s' = { issueNext s with outputs := some (f32dec p.inputs) } := by
  constructor
  · intro h
    rcases step_cases s with ⟨-, e⟩ | ⟨p, -, -, e⟩ | ⟨p, -, -, -, e⟩ | ⟨p, hp, hwf, hh, e⟩ <;> rw [h] at e
    · cases e
    · cases e
    · cases e
    · exact ⟨p, hp, hwf, hh, Host.Outcome.next.inj e⟩
  · rintro ⟨p, hp, hwf, hh, rfl⟩
    exact step_of_held hp hwf hh

theorem State.coherent_of_unreadable {s : State} (h : s.outputs = none) : s.Coherent := by
  simp [State.Coherent, h]

theorem State.coherent_of_transaction {s : State} {p : Presentation} (hp : s.presented = some p)
    (hh : heldFor (decodeOp p.inputs) p.held = true) (ho : s.outputs = some (f32dec p.inputs)) : s.Coherent :=
  fun _ h => ⟨p, hp, hh, Option.some.inj (h.symm.trans ho)⟩

theorem State.PortsFit.hostPresent {s : State} {p : Presentation} (h : s.PortsFit) (hp : p.inputs.wf = true) :
    (hostPresent p s).PortsFit :=
  ⟨fun _ e => Option.some.inj e ▸ hp, h.2⟩

theorem State.PortsFit.issueNext {s : State} (h : s.PortsFit) : (issueNext s).PortsFit := by
  obtain ⟨hpres, hpend⟩ := h
  rcases hq : s.pending with _ | ⟨p, rest⟩
  · rw [issueNext_of_idle hq]
    exact ⟨hpres, hpend⟩
  · rw [hq, List.forall_mem_cons] at hpend
    obtain ⟨hp, hrest⟩ := hpend
    rw [issueNext_of_pending hq]
    exact ⟨fun _ e => Option.some.inj e ▸ hp, hrest⟩

/-- Settles O38: the step leaves the transaction it ran on the ports with its outputs, and the levels it issued were
pending. -/
theorem stepKeepsTheInvariant : Obligations.StepKeepsTheInvariant := by
  intro s s' hs hstep
  obtain ⟨p, hp, -, hh, rfl⟩ := (step_eq_next_iff s s').1 hstep
  exact ⟨State.coherent_of_transaction hp hh rfl, hs.portsFit.issueNext⟩

/-- Settles O37: at reset no output is readable and nothing is presented or pending. -/
theorem resetSatisfiesTheInvariant : Obligations.ResetSatisfiesTheInvariant :=
  ⟨State.coherent_of_unreadable rfl, by simp [State.PortsFit]⟩

theorem hostChange_of_undriven {d : PortChange} {s : State} (h : s.presented = none) : hostChange d s = s := by
  simp [hostChange, h]

theorem hostChange_of_same {d : PortChange} {s : State} {p : Presentation} (h : s.presented = some p)
    (hd : driveInput d p.inputs = p.inputs) : hostChange d s = s := by
  simp [hostChange, h, hd]

theorem hostChange_of_change {d : PortChange} {s : State} {p : Presentation} (h : s.presented = some p)
    (hd : driveInput d p.inputs ≠ p.inputs) :
    hostChange d s =
      { s with
        presented := some { inputs := driveInput d p.inputs, held := release (changedPort d) p.held }
        outputs := if changedPort d ∈ readsOf (decodeOp p.inputs) then none else s.outputs } := by
  simp [hostChange, h, hd]

/-- A change of a read input hides the outputs; one of an unread input keeps them, and they are still those of the
levels on the ports. -/
theorem State.Coherent.hostChange {s : State} (h : s.Coherent) (d : PortChange) : (hostChange d s).Coherent := by
  rcases hpres : s.presented with _ | p
  · rwa [hostChange_of_undriven hpres]
  · by_cases hsame : driveInput d p.inputs = p.inputs
    · rwa [hostChange_of_same hpres hsame]
    · rw [hostChange_of_change hpres hsame]
      by_cases hread : changedPort d ∈ readsOf (decodeOp p.inputs)
      · exact State.coherent_of_unreadable (if_pos hread)
      · intro o ho
        obtain ⟨p', hp', hh, rfl⟩ := h o ((if_neg hread).symm.trans ho)
        obtain rfl : p = p' := Option.some.inj (hpres.symm.trans hp')
        obtain ⟨outputs_eq, held_after⟩ := unread_change hread
        exact ⟨_, rfl, held_after hh, outputs_eq⟩

theorem State.PortsFit.hostChange {s : State} {d : PortChange} (h : s.PortsFit)
    (hd : ∀ n, d = .len n → Config.lenFits n = true) : (hostChange d s).PortsFit := by
  rcases hpres : s.presented with _ | p
  · rwa [hostChange_of_undriven hpres]
  · by_cases hsame : driveInput d p.inputs = p.inputs
    · rwa [hostChange_of_same hpres hsame]
    · rw [hostChange_of_change hpres hsame]
      exact ⟨fun _ e => Option.some.inj e ▸ driveInput_wf (h.1 p hpres) hd, h.2⟩

/-- Settles O39: presenting hides the outputs, and a change keeps each part of the invariant. -/
theorem hostActionsKeepTheInvariant : Obligations.HostActionsKeepTheInvariant := fun _ hs =>
  ⟨fun _ hp => ⟨State.coherent_of_unreadable rfl, hs.portsFit.hostPresent hp⟩,
    fun d hd => ⟨hs.coherent.hostChange d, hs.portsFit.hostChange hd⟩⟩

/-- Settles O6: it is the completing case of what a step can do. -/
theorem stepComputesTheTransactionFunction : Obligations.StepComputesTheTransactionFunction :=
  fun _ _ hp hwf hh => step_of_held hp hwf hh

end Sys2Proof.Machine

/-! ### What the outputs can be

A transaction ends with a parsed word, a decoded pattern or an error report. -/

namespace Sys2Proof.Machine

/-- The condition under which an operation answers next, and the state it answers. -/
theorem exec_eq_next_iff (i : Instr) (s s' : State) :
    exec i s = .next s' ↔
      (∃ p, s.presented = some p ∧ heldFor i p.held = true) ∧ s' = { s with outputs := some (outputsOf i) } := by
  rw [exec_eq_transact, transact_eq_next_iff]
  rfl

/-- Settles O15: the state an operation answers differs from its own in the outputs only. -/
theorem operationsChangeOnlyTheOutputs : Obligations.OperationsChangeOnlyTheOutputs := by
  intro i s s' h
  obtain ⟨-, rfl⟩ := (exec_eq_next_iff i s s').1 h
  exact ⟨rfl, rfl, rfl⟩

theorem parseOutputs_of_ok {n : Nat} {c : Lanes} {v : Word} (h : bitParser n c = .ok v) :
    parseOutputs n c = parsedWord v := by
  simp [parseOutputs, h, parsedWord, Outputs.zero]

theorem parseOutputs_of_error {n : Nat} {c : Lanes} {e : ParseError} (h : bitParser n c = .error e) :
    parseOutputs n c = parseErrorOutputs e := by
  simp [parseOutputs, h]

theorem parseDecodeOutputs_of_ok {n : Nat} {c : Lanes} {v : Word} (h : bitParser n c = .ok v) :
    parseDecodeOutputs n c = decodeOutputs v := by
  simp [parseDecodeOutputs, h]

theorem parseDecodeOutputs_of_error {n : Nat} {c : Lanes} {e : ParseError} (h : bitParser n c = .error e) :
    parseDecodeOutputs n c = parseErrorOutputs e := by
  simp [parseDecodeOutputs, h]

theorem parseErrorOutputs_eq (e : ParseError) :
    ∃ code info, parseErrorOutputs e = reportedError code info ∧ (code ≠ 2 → info = 0) := by
  cases e with
  | wrongLength => exact ⟨1, 0, rfl, fun _ => rfl⟩
  | invalidCharacter ch => exact ⟨2, ch, rfl, fun h => absurd rfl h⟩

/-- Everything the outputs of a transaction can be. -/
theorem outputsOf_cases (i : Instr) :
    (∃ v, outputsOf i = parsedWord v) ∨ (∃ w, outputsOf i = decodeOutputs w) ∨
      ∃ code info, outputsOf i = reportedError code info ∧ (code ≠ 2 → info = 0) := by
  cases i with
  | parse n c =>
    rcases h : bitParser n c with e | v
    · rw [outputsOf, parseOutputs_of_error h]
      exact .inr (.inr (parseErrorOutputs_eq e))
    · exact .inl ⟨v, parseOutputs_of_ok h⟩
  | decode w => exact .inr (.inl ⟨w, rfl⟩)
  | parseDecode n c =>
    rcases h : bitParser n c with e | w
    · rw [outputsOf, parseDecodeOutputs_of_error h]
      exact .inr (.inr (parseErrorOutputs_eq e))
    · exact .inr (.inl ⟨w, parseDecodeOutputs_of_ok h⟩)
  | reserved => exact .inr (.inr ⟨3, 0, rfl, fun _ => rfl⟩)

/-- PARSE decodes nothing: its word aside, it drives only the error outputs (10_state.md R27). -/
theorem parseOutputs_undecoded (n : Nat) (c : Lanes) :
    (parseOutputs n c).f32_o = 0 ∧ (parseOutputs n c).sign_o = 0 ∧ (parseOutputs n c).char_o = 0 ∧
      (parseOutputs n c).mant_o = 0 ∧ (parseOutputs n c).class_o = 0 := by
  rcases h : bitParser n c with e | v
  · obtain ⟨code, info, he, -⟩ := parseErrorOutputs_eq e
    rw [parseOutputs_of_error h, he]
    exact ⟨rfl, rfl, rfl, rfl, rfl⟩
  · rw [parseOutputs_of_ok h]
    exact ⟨rfl, rfl, rfl, rfl, rfl⟩

/-- An error leaves every output but its own two at 0 (60_exceptions.md R96). -/
theorem outputsOf_error_alone {i : Instr} (h : (outputsOf i).err_o ≠ 0) :
    (outputsOf i).word_o = 0 ∧ (outputsOf i).f32_o = 0 ∧ (outputsOf i).sign_o = 0 ∧ (outputsOf i).char_o = 0 ∧
      (outputsOf i).mant_o = 0 ∧ (outputsOf i).class_o = 0 := by
  rcases outputsOf_cases i with ⟨v, e⟩ | ⟨w, e⟩ | ⟨code, info, e, -⟩ <;> rw [e] at h ⊢
  · exact absurd rfl h
  · exact absurd rfl h
  · exact ⟨rfl, rfl, rfl, rfl, rfl, rfl⟩

/-- Settles O16: the outputs of an operation are `outputsOf` of it from every state, so nothing of the state
enters them. -/
theorem undefinedOutputsAreZero : Obligations.UndefinedOutputsAreZero := by
  intro i s s' h
  have outputs_eq : ∀ t t', exec i t = .next t' → t'.outputs = some (outputsOf i) := by
    intro t t' ht
    obtain ⟨-, rfl⟩ := (exec_eq_next_iff i t t').1 ht
    rfl
  refine ⟨outputsOf i, outputs_eq s s' h, outputs_eq, ?_, ?_, outputsOf_error_alone⟩
  · rintro n str rfl
    exact parseOutputs_undecoded n str
  · rintro w rfl
    exact ⟨rfl, rfl⟩

/-- The five classes by the fields (41_float_interpreter.md R71); NORMAL is every pattern left over. -/
theorem classOf_cases (w : Word) :
    (classOf w = .zero ∧ charField w = 0#8 ∧ mantField w = 0#23) ∨
    (classOf w = .subnormal ∧ charField w = 0#8 ∧ mantField w ≠ 0#23) ∨
    (classOf w = .infinity ∧ charField w = 255#8 ∧ mantField w = 0#23) ∨
    (classOf w = .nan ∧ charField w = 255#8 ∧ mantField w ≠ 0#23) ∨
    (classOf w = .normal ∧ charField w ≠ 0#8 ∧ charField w ≠ 255#8) := by
  unfold classOf classify
  split_ifs with hzero hsub hinf hnan
  · exact .inl ⟨rfl, hzero⟩
  · exact .inr (.inl ⟨rfl, hsub⟩)
  · exact .inr (.inr (.inl ⟨rfl, hinf⟩))
  · exact .inr (.inr (.inr (.inl ⟨rfl, hnan⟩)))
  · exact .inr (.inr (.inr (.inr ⟨rfl, by tauto, by tauto⟩)))

/-- A pattern has class NAN exactly when its bits are a NaN's (41_float_interpreter.md R75). -/
theorem classOf_eq_nan_iff (w : Word) : classOf w = .nan ↔ NanPattern w := by
  change _ ↔ charField w = 255#8 ∧ mantField w ≠ 0#23
  rcases classOf_cases w with ⟨e, hc, hm⟩ | ⟨e, hc, hm⟩ | ⟨e, hc, hm⟩ | ⟨e, hc, hm⟩ | ⟨e, hc, hm⟩ <;> simp [e, hc, hm]

/-- The three fields joined are the pattern (41_float_interpreter.md R90). -/
theorem join_fields (w : Word) : signField w ++ (charField w ++ mantField w) = w :=
  (append_fields_eq_iff _ _ _ w).2 ⟨rfl, rfl, rfl⟩

theorem interpretBits_of_nan {w : Word} (h : NanPattern w) : interpretBits w = Config.nanBits := by
  simp [interpretBits, (classOf_eq_nan_iff w).2 h]

/-- Every non-NaN pattern is its own result: the fields a class fixes are those of the pattern
(41_float_interpreter.md R81). -/
theorem interpretBits_of_not_nan {w : Word} (h : ¬ NanPattern w) : interpretBits w = w := by
  have joined := join_fields w
  rcases classOf_cases w with ⟨e, hc, hm⟩ | ⟨e, hc, hm⟩ | ⟨e, hc, hm⟩ | ⟨e, -, -⟩ | ⟨e, -, -⟩
  · simpa [interpretBits, e, withSign, hc, hm] using joined
  · simpa [interpretBits, e, withSign, hc] using joined
  · simpa [interpretBits, e, withSign, hc, hm] using joined
  · exact absurd ((classOf_eq_nan_iff w).1 e) h
  · simpa [interpretBits, e, withSign] using joined

theorem classCode_eq_four_iff (k : FloatClass) : classCode k = 4 ↔ k = .nan := by
  cases k <;> decide

theorem classCode_ne_zero (k : FloatClass) : classCode k ≠ 0 := by
  cases k <;> decide

theorem classCode_le_five (k : FloatClass) : classCode k ≤ 5 := by
  cases k <;> decide

/-- Without a decode, outputs are legal when an error comes alone and only INVALID_CHARACTER has information. -/
theorem Outputs.legal_of_undecoded {o : Outputs} (hclass : o.class_o = 0)
    (hfields : o.f32_o = 0 ∧ o.sign_o = 0 ∧ o.char_o = 0 ∧ o.mant_o = 0) (hword : o.err_o ≠ 0 → o.word_o = 0)
    (hinfo : o.err_o ≠ 2 → o.errchr_o = 0) : o.Legal where
  classCode_driven := by rw [hclass]; decide
  errchr_only_invalid := hinfo
  error_alone h := ⟨hword h, hclass⟩
  undecoded _ := hfields
  decoded h := absurd hclass h
  nan_result h := by rw [hclass] at h; exact absurd h (by decide)
  exact_result h := absurd hclass h

theorem parsedWord_legal (v : Word) : (parsedWord v).Legal :=
  Outputs.legal_of_undecoded rfl ⟨rfl, rfl, rfl, rfl⟩ (fun h => absurd rfl h) fun _ => rfl

theorem reportedError_legal {code : BitVec 2} {info : CharCode} (hinfo : code ≠ 2 → info = 0) :
    (reportedError code info).Legal :=
  Outputs.legal_of_undecoded rfl ⟨rfl, rfl, rfl, rfl⟩ (fun _ => rfl) hinfo

theorem decodeOutputs_legal (w : Word) : (decodeOutputs w).Legal where
  classCode_driven := classCode_le_five _
  errchr_only_invalid _ := rfl
  error_alone h := absurd rfl h
  undecoded h := absurd h (classCode_ne_zero _)
  decoded _ := join_fields w
  nan_result h := by
    have hnan : NanPattern w := (classOf_eq_nan_iff w).1 ((classCode_eq_four_iff _).1 h)
    refine ⟨hnan, ?_⟩
    change NanPattern (interpretBits w)
    rw [interpretBits_of_nan hnan]
    exact Config.nanPattern_nanEncoding _ _
  exact_result _ h := by
    have hnan : ¬ NanPattern w := fun hw => h ((classCode_eq_four_iff _).2 ((classOf_eq_nan_iff w).2 hw))
    exact ⟨hnan, interpretBits_of_not_nan hnan⟩

/-- Settles O17: a parsed word, a decoded pattern and an error report are each legal. -/
theorem everyTransactionsOutputsAreLegal : Obligations.EveryTransactionsOutputsAreLegal := by
  intro p
  unfold f32dec
  rcases outputsOf_cases (decodeOp p) with ⟨v, e⟩ | ⟨w, e⟩ | ⟨code, info, e, hinfo⟩ <;> rw [e]
  · exact parsedWord_legal v
  · exact decodeOutputs_legal w
  · exact reportedError_legal hinfo

end Sys2Proof.Machine

/-! ### Order and repetition of transactions

A step takes its transaction from the host's queue, or samples the ports again when the queue is empty
(20_memory.md R39, R40). -/

namespace Sys2Proof.Machine

/-- A step of an idle host runs the levels on the ports again and changes the outputs only. -/
theorem step_of_idle {s : State} {p : Presentation} (hidle : s.pending = []) (hp : s.presented = some p)
    (hwf : p.inputs.wf = true) (hh : heldFor (decodeOp p.inputs) p.held = true) :
    step s = .next { s with outputs := some (f32dec p.inputs) } := by
  rw [step_of_held ((nextPresentation_of_idle hidle).trans hp) hwf hh, issueNext_of_idle hidle]

/-- Settles O9: a step answers the state as issued, with its outputs driven. -/
theorem stepIssuesOneTransactionInOrder : Obligations.StepIssuesOneTransactionInOrder := by
  intro s s' hstep
  obtain ⟨p, -, -, -, rfl⟩ := (step_eq_next_iff s s').1 hstep
  exact ⟨issueNext_pending s, issueNext_presented s, Option.some_ne_none _⟩

/-- Settles O8: the first step leaves its transaction on the ports, and the idle step drives its outputs again. -/
theorem repeatedTransactionChangesNothing : Obligations.RepeatedTransactionChangesNothing := by
  intro s s' hstep hidle
  obtain ⟨p, hp, hwf, hh, rfl⟩ := (step_eq_next_iff s s').1 hstep
  exact step_of_idle hidle hp hwf hh

end Sys2Proof.Machine

/-! ### Decode and encode

The levels an encoding drives select its transaction again, and the ports numbered as one word give their levels back
(30_encoding.md R42, R43, R54). -/

namespace Sys2Proof

/-- A transaction's encoding selects it again, whatever stands on the ports its format does not list. -/
theorem decodeOp_encodeOver (rest : Inputs) (i : Instr) : decodeOp (encodeOver rest i) = i := by
  cases i with
  | parse n c => exact Laws.PortRoundTrip.parse n c rest
  | decode w => exact Laws.PortRoundTrip.decode w rest
  | parseDecode n c => exact Laws.PortRoundTrip.parseDecode n c rest
  | reserved => exact Laws.PortRoundTrip.reserved rest

theorem decode_encodeOver {rest : Inputs} {i : Instr} (hr : rest.wf = true) (hi : i.wf = true) :
    decode (encodeOver rest i) = .ok i := by
  rw [decode_of_wf (encodeOver_wf hr hi), decodeOp_encodeOver]

/-- A field put below `tail` is its lowest bits. -/
theorem ofNat_toNat_add_mul {n : Nat} (x : BitVec n) (tail : Nat) : BitVec.ofNat n (x.toNat + 2 ^ n * tail) = x := by
  apply BitVec.eq_of_toNat_eq
  rw [BitVec.toNat_ofNat, Nat.add_mul_mod_self_left, Nat.mod_eq_of_lt x.isLt]

/-- Shifting out a field put below `tail` leaves `tail`. -/
theorem toNat_add_mul_shiftRight {n : Nat} (x : BitVec n) (tail : Nat) : (x.toNat + 2 ^ n * tail) >>> n = tail := by
  rw [Nat.shiftRight_eq_div_pow, Nat.add_mul_div_left _ _ (Nat.two_pow_pos n), Nat.div_eq_of_lt x.isLt, Nat.zero_add]

/-- Shifting out `i` lanes leaves the others. -/
theorem packLanes_shiftRight (l : List CharCode) (tail i : Nat) (h : i ≤ l.length) :
    packLanes l tail >>> (21 * i) = packLanes (l.drop i) tail := by
  induction l generalizing i with
  | nil => simp_all
  | cons ch rest ih =>
    cases i with
    | zero => rfl
    | succ i =>
      have tail_le : i ≤ rest.length := by simpa using h
      rw [Nat.mul_succ, Nat.add_comm, Nat.shiftRight_add, packLanes, toNat_add_mul_shiftRight, ih i tail_le,
        List.drop_succ_cons]

theorem ofNat_packLanes_shiftRight (l : List CharCode) (tail i : Nat) (h : i < l.length) :
    BitVec.ofNat 21 (packLanes l tail >>> (21 * i)) = l[i] := by
  rw [packLanes_shiftRight l tail i h.le, List.drop_eq_getElem_cons h, packLanes, ofNat_toNat_add_mul]

theorem toFrame_shiftRight_two (p : Inputs) :
    p.toFrame >>> 2 = p.bits_i.toNat + 2 ^ 32 * packLanes p.chr_i.toList p.len_i :=
  toNat_add_mul_shiftRight p.op_i _

/-- Above `op_i` and `bits_i` stand the lanes and the length. -/
theorem toFrame_shiftRight_lanes (p : Inputs) (k : Nat) :
    p.toFrame >>> (34 + k) = packLanes p.chr_i.toList p.len_i >>> k := by
  rw [show 34 + k = 2 + (32 + k) from by omega, Nat.shiftRight_add, toFrame_shiftRight_two, Nat.shiftRight_add,
    toNat_add_mul_shiftRight]

/-- The numbering of the ports as one word loses nothing (log entry 5). -/
theorem ofFrame_toFrame (p : Inputs) : Inputs.ofFrame p.toFrame = p := by
  have op_eq : BitVec.ofNat 2 p.toFrame = p.op_i := ofNat_toNat_add_mul p.op_i _
  have bits_eq : BitVec.ofNat 32 (p.toFrame >>> 2) = p.bits_i := by
    rw [toFrame_shiftRight_two, ofNat_toNat_add_mul]
  have len_eq : p.toFrame >>> 706 = p.len_i := by
    rw [toFrame_shiftRight_lanes p (21 * 32), packLanes_shiftRight _ _ _ (by simp), List.drop_of_length_le (by simp),
      packLanes]
  have lane_eq : ∀ (k : Nat) (hk : k < 32), BitVec.ofNat 21 (p.toFrame >>> (34 + 21 * k)) = p.chr_i[k] := by
    intro k hk
    rw [toFrame_shiftRight_lanes, ofNat_packLanes_shiftRight _ _ _ (by simpa using hk), Vector.getElem_toList]
  have chr_eq : (Vector.ofFn fun k : Fin 32 => BitVec.ofNat 21 (p.toFrame >>> (34 + 21 * k.val))) = p.chr_i := by
    ext k hk
    simp [lane_eq k hk]
  rw [Inputs.ofFrame, op_eq, bits_eq, len_eq, chr_eq]

/-- A table word that holds the whole frame decodes like the levels. -/
theorem decodeWord_toFrame {p : Inputs} {nbits : Nat} (hop : 2 ≤ nbits) (hfits : p.toFrame < 2 ^ nbits) :
    decodeWord nbits p.toFrame = decode p := by
  rw [decodeWord, if_neg (by omega), Inputs.ofTableWord, Nat.mod_eq_of_lt hfits, ofFrame_toFrame]

/-- Settles O3: the encoding's levels select the transaction again, and the frame gives the levels back. -/
theorem decodeOfEncodeIsIdentity : Obligations.DecodeOfEncodeIsIdentity := by
  intro rest i nbits hi hr hop hfits
  have decoded := decode_encodeOver hr hi
  exact ⟨decoded, (decodeWord_toFrame hop hfits).trans decoded⟩

/-- Levels are the encoding, over themselves, of the transaction they select (30_encoding.md R54). -/
theorem encodeOver_decodeOp (p : Inputs) : encodeOver p (decodeOp p) = p := by
  rcases decodeOp_cases p with ⟨hop, e⟩ | ⟨hop, e⟩ | ⟨hop, e⟩ | ⟨hop, e⟩ <;> rw [e, encodeOver, ← hop]

/-- Settles O4: encoding and the operation map are inverse to each other over the same levels. -/
theorem everyLevelSetIsAnEncoding : Obligations.EveryLevelSetIsAnEncoding := by
  intro p i
  constructor
  · intro h
    rw [← h, decodeOp_encodeOver]
  · rintro rfl
    exact encodeOver_decodeOp p

/-- Settles O1: on levels the ports can carry the decoder answers what the operation map selects, row by row. -/
theorem operationSelectPicksItsRow : Obligations.OperationSelectPicksItsRow := by
  intro p hwf
  rw [decode_of_wf hwf]
  rcases decodeOp_cases p with ⟨hop, e⟩ | ⟨hop, e⟩ | ⟨hop, e⟩ | ⟨hop, e⟩ <;> simp [hop, e]

/-- Settles O2: the four words are closed, and short lengths need no value of `LEN_W`. -/
theorem writtenWordsDecode : Obligations.WrittenWordsDecode := by
  unfold Obligations.WrittenWordsDecode
  decide

end Sys2Proof

/-! ### Operands and inputs

What reaches an operation: its operation value alone, the ports it reads, and the host's arguments. -/

namespace Sys2Proof.Machine

/-- Settles O14: RESERVED is a transaction that reads `op_i` only. -/
theorem reservedResult : Obligations.ReservedResult := by
  intro s p hp hop
  rw [exec_eq_transact]
  exact transact_of_held hp (by simp [readsOf, noOperandReads, holds, hop])

/-- Settles O35: levels that agree on the ports an operation reads give its outputs. -/
theorem unreadInputsDoNotMatter : Obligations.UnreadInputsDoNotMatter := fun _ _ h => (f32dec_congr h).1

/-- A string operand of another length than 32 is WRONG_LENGTH, saturated or not (40_bitparser.md R58). -/
theorem parseDecodeString_of_wrong_length (fill : Lanes) {chars : List CharCode} (h : chars.length ≠ 32) :
    outputsOf (parseDecodeString fill chars) = reportedError 1 0 :=
  parseDecodeOutputs_of_error
    (bitParser_of_wrong_length (fun h32 => h ((saturateLength_eq_32_iff _).1 h32)) _)

/-- Settles O41: ARG is PARSE_DECODE of the argument without its spaces, at its saturated length. -/
theorem argumentsReachTheParser : Obligations.ArgumentsReachTheParser := by
  intro fill raw kept
  refine ⟨lenFits_saturateLength _, parseDecodeString_of_wrong_length fill, fun h32 => ?_, saturateLength_eq_min _⟩
  have length_eq : saturateLength kept.length = 32 := (saturateLength_eq_32_iff _).2 h32
  exact ⟨lanesOf fill kept, congrArg (Instr.parseDecode · _) length_eq, lanesOf_toList fill h32⟩

end Sys2Proof.Machine

/-! ### The encoding of values

Every finite magnitude is a whole number of `2^-149`, and this number, the fields and the encoding determine each other
(30_encoding.md R46, 41_float_interpreter.md R73, R76). -/

namespace Sys2Proof.Machine

/-- The magnitude of the fields `c`, `m` as a number of `2^-149`: `m` in a subnormal (R73), else the mantissa with its
leading 1, `2^(c-1)` times (R76). -/
def fieldUnits (c : BitVec 8) (m : BitVec 23) : Nat :=
  if c = 0#8 then m.toNat else (2 ^ 23 + m.toNat) * 2 ^ (c.toNat - 1)

theorem fieldUnits_zero (m : BitVec 23) : fieldUnits 0#8 m = m.toNat := rfl

theorem fieldUnits_of_ne_zero {c : BitVec 8} (h : c ≠ 0#8) (m : BitVec 23) :
    fieldUnits c m = (2 ^ 23 + m.toNat) * 2 ^ (c.toNat - 1) := if_neg h

theorem fieldUnits_pos_iff (c : BitVec 8) (m : BitVec 23) : 0 < fieldUnits c m ↔ ¬ (c = 0#8 ∧ m = 0#23) := by
  by_cases hc : c = 0#8
  · subst hc
    simp [fieldUnits_zero, Nat.pos_iff_ne_zero, ← BitVec.toNat_inj]
  · simp [fieldUnits_of_ne_zero hc, hc]

theorem subnormalMagnitude_mul (m : BitVec 23) : subnormalMagnitude m * 2 ^ 149 = fieldUnits 0#8 m := by
  rw [subnormalMagnitude, fieldUnits_zero, mul_assoc]
  norm_num

theorem normalMagnitude_mul {c : BitVec 8} (h : c ≠ 0#8) (m : BitVec 23) :
    normalMagnitude c m * 2 ^ 149 = fieldUnits c m := by
  have c_pos : 1 ≤ c.toNat := by bv_omega
  have scale : (2 : Rat) ^ ((c.toNat : Int) - 127) * 2 ^ 149 = 2 ^ 23 * 2 ^ (c.toNat - 1) := by
    rw [← zpow_natCast, ← zpow_natCast, ← zpow_natCast, ← zpow_add₀ two_ne_zero, ← zpow_add₀ two_ne_zero]
    congr 1
    push_cast [c_pos]
    ring
  rw [normalMagnitude, fieldUnits_of_ne_zero h, mul_assoc, scale]
  push_cast
  ring

theorem encUnits_of_lt {u : Nat} (h : u < 2 ^ 23) : encUnits u = some (0x00#8 ++ BitVec.ofNat 23 u) := if_pos h

/-- The leading 1 of a mantissa at `2^e` is where `encUnits` finds it. -/
theorem log2_leading {m : Nat} (h : m < 2 ^ 23) (e : Nat) : Nat.log2 ((2 ^ 23 + m) * 2 ^ e) = 23 + e := by
  rw [Nat.log2_eq_iff (by positivity), Nat.pow_add, Nat.add_right_comm, Nat.pow_add]
  have pow_pos := Nat.two_pow_pos e
  exact ⟨Nat.mul_le_mul_right _ (by omega), Nat.mul_lt_mul_of_pos_right (by omega) pow_pos⟩

/-- A mantissa with its leading 1 at `2^e` is encoded while the characteristic `e + 1` is a normal's. -/
theorem encUnits_leading {m : Nat} (h : m < 2 ^ 23) (e : Nat) :
    encUnits ((2 ^ 23 + m) * 2 ^ e) =
      if e + 1 ≤ 254 then some (BitVec.ofNat 8 (e + 1) ++ BitVec.ofNat 23 m) else none := by
  have pow_pos := Nat.two_pow_pos e
  have leading : 2 ^ 23 ≤ (2 ^ 23 + m) * 2 ^ e :=
    (Nat.le_add_right _ m).trans (Nat.le_mul_of_pos_right _ pow_pos)
  have mantissa : BitVec.ofNat 23 (2 ^ 23 + m) = BitVec.ofNat 23 m := by
    apply BitVec.eq_of_toNat_eq
    simp
  simp only [encUnits, if_neg (Nat.not_lt.2 leading), log2_leading h, Nat.add_sub_cancel_left, Nat.mul_mod_left,
    Nat.mul_div_cancel _ pow_pos, mantissa, true_and]

/-- A number of 24 bits or more has no encoding unless it is a 24-bit mantissa, leading 1 and all, with zeros below. -/
theorem encUnits_of_ge {u : Nat} (h : 2 ^ 23 ≤ u) :
    encUnits u = none ∨ ∃ m e, m < 2 ^ 23 ∧ u = (2 ^ 23 + m) * 2 ^ e := by
  by_cases whole : u % 2 ^ (Nat.log2 u - 23) = 0
  · right
    obtain ⟨lower, upper⟩ := (Nat.log2_eq_iff (by omega)).1 (rfl : Nat.log2 u = Nat.log2 u)
    have top : 23 ≤ Nat.log2 u := (Nat.le_log2 (by omega)).2 h
    obtain ⟨e, log_eq⟩ := Nat.exists_eq_add_of_le top
    rw [log_eq, Nat.add_sub_cancel_left] at whole
    obtain ⟨k, rfl⟩ := Nat.dvd_of_mod_eq_zero whole
    rw [log_eq, Nat.pow_add, Nat.mul_comm] at lower
    rw [log_eq, Nat.add_right_comm, Nat.pow_add, Nat.mul_comm _ (2 ^ e)] at upper
    have k_ge := Nat.le_of_mul_le_mul_left lower (Nat.two_pow_pos e)
    have k_lt := Nat.lt_of_mul_lt_mul_left upper
    exact ⟨k - 2 ^ 23, e, by omega, by rw [Nat.add_sub_cancel' k_ge, Nat.mul_comm]⟩
  · left
    rw [encUnits, if_neg (Nat.not_lt.2 h)]
    simp [whole]

/-- `encUnits` encodes exactly the numbers fields below characteristic 255 stand for, and by these fields. -/
theorem encUnits_eq_some_iff (u : Nat) (low : BitVec 31) :
    encUnits u = some low ↔ ∃ c m, c ≠ 255#8 ∧ fieldUnits c m = u ∧ c ++ m = low := by
  constructor
  · intro h
    rcases Nat.lt_or_ge u (2 ^ 23) with hu | hu
    · rw [encUnits_of_lt hu] at h
      refine ⟨0#8, BitVec.ofNat 23 u, by decide, ?_, Option.some.inj h⟩
      rw [fieldUnits_zero, BitVec.toNat_ofNat, Nat.mod_eq_of_lt hu]
    · rcases encUnits_of_ge hu with hnone | ⟨m, e, hm, rfl⟩
      · rw [hnone] at h; cases h
      · rw [encUnits_leading hm] at h
        split at h
        case isFalse => cases h
        case isTrue he =>
          have c_eq : (BitVec.ofNat 8 (e + 1)).toNat = e + 1 := by
            rw [BitVec.toNat_ofNat, Nat.mod_eq_of_lt (by omega)]
          have c_ne_zero : BitVec.ofNat 8 (e + 1) ≠ 0#8 := by bv_omega
          refine ⟨BitVec.ofNat 8 (e + 1), BitVec.ofNat 23 m, by bv_omega, ?_, Option.some.inj h⟩
          rw [fieldUnits_of_ne_zero c_ne_zero, c_eq, BitVec.toNat_ofNat, Nat.mod_eq_of_lt hm, Nat.add_sub_cancel]
  · rintro ⟨c, m, hc, rfl, rfl⟩
    by_cases h0 : c = 0#8
    · rw [h0, fieldUnits_zero, encUnits_of_lt m.isLt, BitVec.ofNat_toNat, BitVec.setWidth_eq]
    · have c_range : 1 ≤ c.toNat ∧ c.toNat ≤ 254 := by bv_omega
      rw [fieldUnits_of_ne_zero h0, encUnits_leading m.isLt, Nat.sub_add_cancel c_range.1, if_pos c_range.2]
      simp

/-- `encMagnitude` encodes exactly the positive magnitudes of fields below characteristic 255, and by these fields. -/
theorem encMagnitude_eq_some_iff (q : Rat) (low : BitVec 31) :
    encMagnitude q = some low ↔
      ∃ c m, c ≠ 255#8 ∧ 0 < fieldUnits c m ∧ q * 2 ^ 149 = fieldUnits c m ∧ c ++ m = low := by
  constructor
  · intro h
    rw [encMagnitude] at h
    split at h
    case isFalse => cases h
    case isTrue hq =>
      obtain ⟨num_pos, den_one⟩ := hq
      obtain ⟨c, m, hc, hu, hlow⟩ := (encUnits_eq_some_iff _ _).1 h
      have num_eq : ((q * 2 ^ 149).num.toNat : Int) = (q * 2 ^ 149).num := Int.toNat_of_nonneg num_pos.le
      refine ⟨c, m, hc, by omega, ?_, hlow⟩
      rw [hu, ← Int.cast_natCast, num_eq, Rat.den_eq_one_iff _ |>.1 den_one]
  · rintro ⟨c, m, hc, hpos, hq, hlow⟩
    have encoded := (encUnits_eq_some_iff _ _).2 ⟨c, m, hc, rfl, hlow⟩
    simpa [encMagnitude, hq, hpos] using encoded

/-- A word is composed of a sign and the fields `c`, `m` exactly when these are its fields (R68 to R70, R77). -/
theorem withSign_append_eq_iff (s : BitVec 1) (c : BitVec 8) (m : BitVec 23) (b : Word) :
    withSign s (c ++ m) = b ↔ signField b = s ∧ charField b = c ∧ mantField b = m :=
  append_fields_eq_iff s c m b

theorem enc32_zero_iff (s : BitVec 1) (b : Word) :
    enc32 (.zero s) = some b ↔ signField b = s ∧ charField b = 0#8 ∧ mantField b = 0#23 := by
  rw [← withSign_append_eq_iff]
  simp [enc32]

theorem enc32_inf_iff (s : BitVec 1) (b : Word) :
    enc32 (.inf s) = some b ↔ signField b = s ∧ charField b = 255#8 ∧ mantField b = 0#23 := by
  rw [← withSign_append_eq_iff]
  simp [enc32]

theorem enc32_finite_iff (s : BitVec 1) (q : Rat) (b : Word) :
    enc32 (.finite s q) = some b ↔
      signField b = s ∧ charField b ≠ 255#8 ∧ 0 < fieldUnits (charField b) (mantField b) ∧
        q * 2 ^ 149 = fieldUnits (charField b) (mantField b) := by
  simp only [enc32, Option.map_eq_some_iff, encMagnitude_eq_some_iff]
  constructor
  · rintro ⟨-, ⟨c, m, hc, hpos, hq, rfl⟩, hb⟩
    obtain ⟨hs, rfl, rfl⟩ := (withSign_append_eq_iff s c m b).1 hb
    exact ⟨hs, hc, hpos, hq⟩
  · rintro ⟨hs, hc, hpos, hq⟩
    exact ⟨_, ⟨_, _, hc, hpos, hq, rfl⟩, (withSign_append_eq_iff _ _ _ b).2 ⟨hs, rfl, rfl⟩⟩

/-- The value of a pattern: zero, infinity, NaN, or the number of `2^-149` its fields stand for (R72 to R76). -/
theorem interpret_cases (b : Word) :
    (interpret b = .zero (signField b) ∧ charField b = 0#8 ∧ mantField b = 0#23) ∨
    (interpret b = .inf (signField b) ∧ charField b = 255#8 ∧ mantField b = 0#23) ∨
    (interpret b = .nan ∧ charField b = 255#8 ∧ mantField b ≠ 0#23) ∨
    (∃ r, interpret b = .finite (signField b) r ∧ charField b ≠ 255#8 ∧
      0 < fieldUnits (charField b) (mantField b) ∧ r * 2 ^ 149 = fieldUnits (charField b) (mantField b)) := by
  unfold interpret
  rcases classOf_cases b with ⟨e, hc, hm⟩ | ⟨e, hc, hm⟩ | ⟨e, hc, hm⟩ | ⟨e, hc, hm⟩ | ⟨e, h0, h255⟩ <;> rw [e]
  · exact .inl ⟨rfl, hc, hm⟩
  · refine .inr (.inr (.inr ⟨_, rfl, by simp [hc], (fieldUnits_pos_iff _ _).2 fun h => hm h.2, ?_⟩))
    rw [hc, subnormalMagnitude_mul]
  · exact .inr (.inl ⟨rfl, hc, hm⟩)
  · exact .inr (.inr (.inl ⟨rfl, hc, hm⟩))
  · exact .inr (.inr (.inr ⟨_, rfl, h255, (fieldUnits_pos_iff _ _).2 fun h => h0 h.1, normalMagnitude_mul h0 _⟩))

theorem interpret_eq_zero_iff (s : BitVec 1) (b : Word) :
    interpret b = .zero s ↔ signField b = s ∧ charField b = 0#8 ∧ mantField b = 0#23 := by
  rcases interpret_cases b with ⟨e, hc, hm⟩ | ⟨e, hc, -⟩ | ⟨e, hc, -⟩ | ⟨r, e, -, hpos, -⟩
  · simp [e, hc, hm]
  · simp [e, hc]
  · simp [e, hc]
  · rw [fieldUnits_pos_iff] at hpos
    simp [e, hpos]

theorem interpret_eq_inf_iff (s : BitVec 1) (b : Word) :
    interpret b = .inf s ↔ signField b = s ∧ charField b = 255#8 ∧ mantField b = 0#23 := by
  rcases interpret_cases b with ⟨e, hc, -⟩ | ⟨e, hc, hm⟩ | ⟨e, -, hm⟩ | ⟨r, e, hc, -, -⟩
  · simp [e, hc]
  · simp [e, hc, hm]
  · simp [e, hm]
  · simp [e, hc]

theorem interpret_eq_finite_iff (s : BitVec 1) (q : Rat) (b : Word) :
    interpret b = .finite s q ↔
      signField b = s ∧ charField b ≠ 255#8 ∧ 0 < fieldUnits (charField b) (mantField b) ∧
        q * 2 ^ 149 = fieldUnits (charField b) (mantField b) := by
  rcases interpret_cases b with ⟨e, hc, hm⟩ | ⟨e, hc, -⟩ | ⟨e, hc, -⟩ | ⟨r, e, hc, hpos, hr⟩
  · simp [e, fieldUnits_pos_iff, hc, hm]
  · simp [e, hc]
  · simp [e, hc]
  · rw [e, Value.finite.injEq, ← hr, mul_left_inj' (by positivity)]
    simp [hc, hpos, eq_comm]

/-- Settles O28: on each kind of value `enc32` and `interpret` ask the same of the fields of the word. -/
theorem encodingIsInverseOfTheValueMapping : Obligations.EncodingIsInverseOfTheValueMapping := by
  intro v b
  cases v with
  | zero s => simp [enc32_zero_iff, interpret_eq_zero_iff]
  | finite s q => simp [enc32_finite_iff, interpret_eq_finite_iff]
  | inf s => simp [enc32_inf_iff, interpret_eq_inf_iff]
  | nan => simp [enc32]

end Sys2Proof.Machine

/-! ### Strings and their words

BitParser gives the word of a string of digits and reports the leftmost invalid character of any other string
(40_bitparser.md R60, R64, R65). -/

namespace Sys2Proof.Machine

theorem isDigit_iff_validDigit (ch : CharCode) : isDigit ch = true ↔ ValidDigit ch := isDigit_iff ch

theorem isDigit_eq_false_iff (ch : CharCode) : isDigit ch = false ↔ ¬ ValidDigit ch := by
  rw [← Bool.not_eq_true, isDigit_iff_validDigit]

theorem all_isDigit_toList_iff (str : Lanes) :
    str.toList.all isDigit = true ↔ ∀ k : Fin 32, ValidDigit str[k] := by
  simp [isDigit_iff_validDigit, Fin.forall_iff]

/-- The loop answers a word exactly on digits. -/
theorem parseLanes_ok_iff (k : Nat) (acc : Word) (l : List CharCode) :
    (∃ v, parseLanes k acc l = .ok v) ↔ l.all isDigit = true := by
  rcases parseLanes_cases l k acc with ⟨hall, hv⟩ | ⟨pre, ch, post, rfl, -, hch, e⟩
  · simp [hall, hv]
  · simp [e, hch]

/-- Digits left of an invalid character are passed, and it is the one reported. -/
theorem parseLanes_append_invalid (k : Nat) (acc : Word) {pre : List CharCode} {ch : CharCode}
    (hpre : pre.all isDigit = true) (hch : isDigit ch = false) (post : List CharCode) :
    parseLanes k acc (pre ++ ch :: post) = .error (.invalidCharacter ch) := by
  induction pre generalizing k acc with
  | nil => exact parseLanes_invalid k acc hch post
  | cons d rest ih =>
    obtain ⟨hd, hrest⟩ : isDigit d = true ∧ rest.all isDigit = true := by simpa using hpre
    rw [List.cons_append, parseLanes_digit k acc hd, ih _ _ hrest]

/-- The loop's step at lane `k` sets bit `31 - k` when the character is `'1'`, and keeps every other bit. -/
theorem getLsbD_digit_step (acc : Word) (ch : CharCode) {k j : Nat} (hk : k < 32) (hj : j < 32) :
    (if ch = digitOne then acc ||| (1#32 <<< (31 - k)) else acc).getLsbD (31 - j) =
      (acc.getLsbD (31 - j) || decide (k = j ∧ ch = digitOne)) := by
  have same_bit : 31 - j = 31 - k ↔ k = j := by omega
  split
  case isTrue hone =>
    have in_range : 31 - j < 32 := by omega
    simp [← BitVec.twoPow_eq, hone, in_range, same_bit]
  case isFalse hone => simp [hone]

/-- The loop from lane `k` on sets bit `31 - j` when the character for lane `j` is `'1'`, and keeps every other bit. -/
theorem getLsbD_of_parseLanes {l : List CharCode} {k : Nat} {acc v : Word} (hlen : k + l.length ≤ 32)
    (h : parseLanes k acc l = .ok v) {j : Nat} (hj : j < 32) :
    v.getLsbD (31 - j) = (acc.getLsbD (31 - j) || decide (k ≤ j ∧ l[j - k]? = some digitOne)) := by
  induction l generalizing k acc with
  | nil =>
    obtain rfl : acc = v := Except.ok.inj h
    simp
  | cons ch rest ih =>
    rw [List.length_cons] at hlen
    rcases hd : isDigit ch with _ | _
    · rw [parseLanes_invalid k acc hd] at h
      cases h
    · rw [parseLanes_digit k acc hd] at h
      rw [ih (by omega) h, getLsbD_digit_step acc ch (by omega) hj, Bool.or_assoc, ← Bool.decide_or]
      congr 2
      rcases Nat.lt_trichotomy j k with hlt | rfl | hgt
      · simp [hlt.ne', hlt.not_ge, (Nat.lt_succ_of_lt hlt).not_ge]
      · simp
      · have offset : j - k = j - (k + 1) + 1 := by omega
        simp [offset, hgt.ne, hgt.le, Nat.succ_le_of_lt hgt]

/-- A string has at most one word. -/
theorem isWordOf_unique {str : Lanes} {v v' : Word} (h : IsWordOf str v) (h' : IsWordOf str v') : v = v' := by
  refine BitVec.eq_of_getLsbD_eq fun i hi => ?_
  have bit_eq := (h ⟨31 - i, by omega⟩).trans (h' ⟨31 - i, by omega⟩).symm
  rwa [Nat.sub_sub_self (by omega)] at bit_eq

theorem exists_bitParser_eq_ok_iff (str : Lanes) :
    (∃ v, bitParser 32 str = .ok v) ↔ ∀ k : Fin 32, ValidDigit str[k] := by
  rw [bitParser_of_length, parseLanes_ok_iff, all_isDigit_toList_iff]

theorem isWordOf_of_bitParser {str : Lanes} {v : Word} (h : bitParser 32 str = .ok v) : IsWordOf str v := by
  intro k
  rw [bitParser_of_length] at h
  rw [getLsbD_of_parseLanes (by simp) h k.isLt]
  simp [digitOne]

/-- BitParser answers exactly the word of a string of digits (40_bitparser.md R60, R64). -/
theorem bitParser_eq_ok_iff (str : Lanes) (v : Word) :
    bitParser 32 str = .ok v ↔ (∀ k : Fin 32, ValidDigit str[k]) ∧ IsWordOf str v := by
  constructor
  · exact fun h => ⟨(exists_bitParser_eq_ok_iff str).1 ⟨v, h⟩, isWordOf_of_bitParser h⟩
  · rintro ⟨hvalid, hword⟩
    obtain ⟨v', h⟩ := (exists_bitParser_eq_ok_iff str).2 hvalid
    rwa [isWordOf_unique hword (isWordOf_of_bitParser h)]

/-- BitParser reports the leftmost invalid character (40_bitparser.md R60). -/
theorem bitParser_of_first_invalid {str : Lanes} {k : Fin 32} (hk : ¬ ValidDigit str[k])
    (hleft : ∀ j : Fin 32, j < k → ValidDigit str[j]) : bitParser 32 str = .error (.invalidCharacter str[k]) := by
  have k_read : k ∈ lanesRead str := (mem_lanesRead str k).2 fun j hj => (isDigit_iff_validDigit _).2 (hleft j hj)
  have digits_left : (str.toList.take k.val).all isDigit = true := by simpa [lanesRead] using k_read
  have from_k : str.toList.drop k.val = str[k] :: str.toList.drop (k.val + 1) :=
    List.drop_eq_getElem_cons (by simp)
  rw [bitParser_of_length, ← List.take_append_drop k.val str.toList, from_k]
  exact parseLanes_append_invalid 0 0 digits_left ((isDigit_eq_false_iff _).2 hk) _

/-- A character is the digit of a bit exactly when it is a digit, and the bit says whether it is `'1'`. -/
theorem eq_digit_iff (ch : CharCode) (b : Bool) :
    ch = (if b then 0x31#21 else 0x30#21) ↔ ValidDigit ch ∧ b = decide (ch = 0x31#21) := by
  unfold ValidDigit
  constructor
  · rintro rfl
    cases b <;> simp
  · rintro ⟨rfl | rfl, rfl⟩ <;> simp

/-- Settles O20: lane by lane, the digits of a value are a string of digits whose word is the value. -/
theorem bitParserIsABijection : Obligations.BitParserIsABijection := by
  refine ⟨fun str v => ?_, exists_bitParser_eq_ok_iff⟩
  simp only [bitParser_eq_ok_iff, IsWordOf, eq_digit_iff, forall_and]

end Sys2Proof.Machine

/-! ### PARSE

What PARSE reads of a string (70_reset_and_hazards.md R112; log entry 9), and what it completes with
(40_bitparser.md R61). -/

namespace Sys2Proof.Machine

/-- A string operation's inputs are held when `op_i`, `len_i` and, at length 32, the lanes read are. -/
theorem stringReads_all_holds_iff (n : Nat) (str : Lanes) (h : Held) :
    (stringReads n str).all (holds h) = true ↔
      h.op_i = true ∧ h.len_i = true ∧ (n = 32 → ∀ k ∈ lanesRead str, h.chr_i[k] = true) := by
  by_cases hn : n = 32 <;> simp [stringReads, hn, holds]

/-- No lane right of an invalid one is read (40_bitparser.md R60; log entry 9). -/
theorem le_of_mem_lanesRead {str : Lanes} {j k : Fin 32} (hj : j ∈ lanesRead str) (hk : ¬ ValidDigit str[k]) :
    j ≤ k := by
  by_contra hlt
  exact hk ((isDigit_iff_validDigit _).1 ((mem_lanesRead str j).1 hj k (not_le.1 hlt)))

/-- PARSE whose inputs are held completes with its outputs. -/
theorem exec_parse_of_held {s : State} {p : Presentation} {n : Nat} {str : Lanes} (hp : s.presented = some p)
    (hop : p.held.op_i = true) (hlen : p.held.len_i = true)
    (hlanes : n = 32 → ∀ k ∈ lanesRead str, p.held.chr_i[k] = true) :
    exec (.parse n str) s = .next { s with outputs := some (parseOutputs n str) } :=
  transact_of_held hp ((stringReads_all_holds_iff n str p.held).2 ⟨hop, hlen, hlanes⟩)

/-- Settles O11: in each case what is held is what PARSE reads, and BitParser's answer there gives the outputs. -/
theorem parseResult : Obligations.ParseResult := by
  intro s p n str hp hop hlen
  refine ⟨fun hn => ?_, ?_, ?_⟩
  · rw [exec_parse_of_held hp hop hlen fun h => absurd h hn,
      parseOutputs_of_error (bitParser_of_wrong_length hn str)]
    rfl
  · rintro rfl k hk hleft hheld
    rw [exec_parse_of_held hp hop hlen fun _ j hj => hheld j (le_of_mem_lanesRead hj hk),
      parseOutputs_of_error (bitParser_of_first_invalid hk hleft)]
    rfl
  · rintro rfl hvalid hheld v hv
    rw [exec_parse_of_held hp hop hlen fun _ j _ => hheld j,
      parseOutputs_of_ok ((bitParser_eq_ok_iff str v).2 ⟨hvalid, hv⟩)]

/-- The string of a pattern parses back to it (40_bitparser.md R65). -/
theorem bitParser_digitsOf (w : Word) : bitParser 32 (digitsOf w) = .ok w := by
  refine (bitParserIsABijection.1 (digitsOf w) w).2 fun k => ?_
  simp [digitsOf, digitOne, digitZero]

theorem holds_all (port : InPort) : holds Held.all port = true := by
  cases port <;> simp [holds, Held.all]

/-- Settles O21: every input is held, and the string's word is the pattern. -/
theorem digitStringDecodesLikeItsWord : Obligations.DigitStringDecodesLikeItsWord := by
  intro s p w hp hheld
  have completes : ∀ i, exec i s = .next { s with outputs := some (outputsOf i) } := fun i =>
    (exec_eq_next_iff i s _).2 ⟨⟨p, hp, by simp [heldFor, hheld, holds_all]⟩, rfl⟩
  have parsed := bitParser_digitsOf w
  simp only [completes, outputsOf, parseOutputs_of_ok parsed, parseDecodeOutputs_of_ok parsed, and_self]

end Sys2Proof.Machine

/-! ### DECODE

DECODE completes with the raw fields, the class and the result of its pattern (41_float_interpreter.md R71, R85). -/

namespace Sys2Proof.Machine

/-- DECODE whose inputs are held completes with its outputs. -/
theorem exec_decode_of_held {s : State} {p : Presentation} (hp : s.presented = some p) (hop : p.held.op_i = true)
    (hbits : p.held.bits_i = true) (w : Word) :
    exec (.decode w) s = .next { s with outputs := some (decodeOutputs w) } :=
  transact_of_held hp (by simp [wordReads, holds, hop, hbits])

/-- Outputs read after DECODE answers next are those of its pattern. -/
theorem outputs_of_exec_decode {s s' : State} {w : Word} {o : Outputs} (h : exec (.decode w) s = .next s')
    (ho : s'.outputs = some o) : o = decodeOutputs w := by
  obtain ⟨-, rfl⟩ := (exec_eq_next_iff (.decode w) s s').1 h
  exact (Option.some.inj ho).symm

/-- The result by the slices of the pattern (41_float_interpreter.md R81, R83). -/
theorem interpretBits_eq_ite (w : Word) :
    interpretBits w = if charField w = 255#8 ∧ mantField w ≠ 0#23 then Config.nanBits else w := by
  split
  case isTrue h => exact interpretBits_of_nan h
  case isFalse h => exact interpretBits_of_not_nan h

/-- The class code by the slices of the pattern (41_float_interpreter.md R71, 30_encoding.md R50). -/
theorem classCode_classOf (w : Word) :
    classCode (classOf w) =
      if charField w = 0#8 then (if mantField w = 0#23 then 1 else 2)
      else if charField w = 255#8 then (if mantField w = 0#23 then 3 else 4)
      else 5 := by
  rcases classOf_cases w with ⟨e, hc, hm⟩ | ⟨e, hc, hm⟩ | ⟨e, hc, hm⟩ | ⟨e, hc, hm⟩ | ⟨e, hc, hm⟩ <;>
    simp [e, hc, hm, classCode]

theorem decodeOutputs_eq_decodedBySlices (w : Word) : decodeOutputs w = decodedBySlices w := by
  rw [decodeOutputs, interpretBits_eq_ite, classCode_classOf]
  rfl

/-- Settles O12: the inputs DECODE reads are held, and its outputs are those of the slices. -/
theorem decodeResult : Obligations.DecodeResult := by
  intro s p w hp hop hbits
  rw [exec_decode_of_held hp hop hbits, decodeOutputs_eq_decodedBySlices]

/-- Settles O23: the outputs are those of the pattern, and its fields join to it. -/
theorem fieldOutputsAreTheRawFields : Obligations.FieldOutputsAreTheRawFields := by
  intro s s' w o h ho
  obtain rfl := outputs_of_exec_decode h ho
  exact ⟨join_fields w, rfl, rfl, rfl, rfl⟩

/-- Settles O24: both clauses are the result and the class code by whether the pattern is a NaN's. -/
theorem decodeRoundTrip : Obligations.DecodeRoundTrip := by
  intro s p w hp hop hbits
  have class_iff : (decodeOutputs w).class_o = 4 ↔ NanPattern w :=
    (classCode_eq_four_iff _).trans (classOf_eq_nan_iff w)
  refine ⟨decodeOutputs w, exec_decode_of_held hp hop hbits w, fun hw => ?_, fun hw => ?_⟩
  · exact ⟨interpretBits_of_not_nan hw, fun h => hw (class_iff.1 h)⟩
  · have class_nan := class_iff.2 hw
    exact ⟨class_nan, ((decodeOutputs_legal w).nan_result class_nan).2⟩

/-- Settles O25: `NAN_BITS` is a NaN encoding for every choice of its free constants, and the result of the class
NAN. -/
theorem nanPatternsGiveNanBits : Obligations.NanPatternsGiveNanBits := by
  refine ⟨Config.nanPattern_nanEncoding _ _, fun s s' w o hw h ho => ?_⟩
  obtain rfl := outputs_of_exec_decode h ho
  exact interpretBits_of_nan hw

/-- A class by its fields is the class of every word composed of them. -/
theorem classify_eq_classOf (s : BitVec 1) (c : BitVec 8) (m : BitVec 23) :
    classify c m = classOf (withSign s (c ++ m)) := by
  obtain ⟨-, hc, hm⟩ := (withSign_append_eq_iff s c m _).1 rfl
  rw [classOf, hc, hm]

/-- Settles O22: in each of the five classes the conditions on the fields, read as numbers, decide every clause. -/
theorem classesPartitionThePatterns : Obligations.ClassesPartitionThePatterns := by
  intro c m
  obtain ⟨-, char_eq, mant_eq⟩ := (withSign_append_eq_iff 0 c m _).1 rfl
  have mant_zero_iff : m = 0#23 ↔ m.toNat = 0 := by bv_omega
  have class_cases := classOf_cases (withSign 0 (c ++ m))
  rw [char_eq, mant_eq, ← classify_eq_classOf] at class_cases
  rcases class_cases with ⟨e, hc, hm⟩ | ⟨e, hc, hm⟩ | ⟨e, hc, hm⟩ | ⟨e, hc, hm⟩ | ⟨e, h0, h255⟩
  · rw [e]
    simp [hc, hm, classCode]
  · rw [e]
    simp [hc, mant_zero_iff.not.1 hm, classCode]
  · rw [e]
    simp [hc, hm, classCode]
  · rw [e]
    simp [hc, mant_zero_iff.not.1 hm, classCode]
  · have c_range : 1 ≤ c.toNat ∧ c.toNat ≤ 254 := by bv_omega
    have c_ne_zero : c.toNat ≠ 0 := by omega
    have c_ne_max : c.toNat ≠ 255 := by omega
    simp [e, c_range, c_ne_zero, c_ne_max, classCode]

end Sys2Proof.Machine

/-! ### The exact value

The value of a pattern by its class, its sign and magnitude, and the ranges of the magnitudes
(41_float_interpreter.md R67, R72 to R77, R88). -/

namespace Sys2Proof.Machine

theorem interpret_of_subnormal {w : Word} (h : classOf w = .subnormal) :
    interpret w = .finite (signField w) (subnormalMagnitude (mantField w)) := by
  simp [interpret, h, compose]

theorem interpret_of_normal {w : Word} (h : classOf w = .normal) :
    interpret w = .finite (signField w) (normalMagnitude (charField w) (mantField w)) := by
  simp [interpret, h, compose]

/-- The value is NaN exactly for the NaN patterns (41_float_interpreter.md R75). -/
theorem interpret_eq_nan_iff (w : Word) : interpret w = .nan ↔ NanPattern w := by
  rw [← classOf_eq_nan_iff]
  rcases h : classOf w <;> simp [interpret, h, compose]

/-- The value of every other pattern is encoded by the pattern itself (30_encoding.md R46). -/
theorem enc32_interpret {w : Word} (h : ¬ NanPattern w) : enc32 (interpret w) = some w :=
  (encodingIsInverseOfTheValueMapping _ w).2 ⟨rfl, fun hnan => h ((interpret_eq_nan_iff w).1 hnan)⟩

theorem enc32_interpret_of_nan {w : Word} (h : NanPattern w) : enc32 (interpret w) = none := by
  rw [(interpret_eq_nan_iff w).2 h, enc32]

/-- The result at the port is the encoding of the value, or `NAN_BITS` (41_float_interpreter.md R67, R83). -/
theorem interpretBits_eq_getD (w : Word) : interpretBits w = (enc32 (interpret w)).getD Config.nanBits := by
  by_cases h : NanPattern w
  · rw [interpretBits_of_nan h, enc32_interpret_of_nan h, Option.getD_none]
  · rw [interpretBits_of_not_nan h, enc32_interpret h, Option.getD_some]

/-- Settles O27: a pattern that is no NaN encodes its own value and is its own result. -/
theorem outputEncodesTheExactValue : Obligations.OutputEncodesTheExactValue := fun w =>
  ⟨interpretBits_eq_getD w, rfl, fun h => ⟨enc32_interpret h, interpretBits_of_not_nan h⟩, interpret_eq_nan_iff w⟩

/-- Outside NaN the value is composed of the sign and a magnitude that the other two fields determine
(41_float_interpreter.md R77). -/
theorem exists_magnitude {c : BitVec 8} {m : BitVec 23} (h : classify c m ≠ .nan) :
    ∃ mag, ∀ s, interpret (withSign s (c ++ m)) = compose s mag := by
  have fields : ∀ s, signField (withSign s (c ++ m)) = s ∧ charField (withSign s (c ++ m)) = c ∧
      mantField (withSign s (c ++ m)) = m := fun s => (withSign_append_eq_iff s c m _).1 rfl
  rcases e : classify c m
  case zero => exact ⟨.zero, fun s => by simp [interpret, ← classify_eq_classOf, e, fields]⟩
  case subnormal =>
    exact ⟨.finite (subnormalMagnitude m), fun s => by simp [interpret, ← classify_eq_classOf, e, fields]⟩
  case infinity => exact ⟨.inf, fun s => by simp [interpret, ← classify_eq_classOf, e, fields]⟩
  case nan => exact absurd e h
  case normal => exact ⟨.finite (normalMagnitude c m), fun s => by simp [interpret, ← classify_eq_classOf, e, fields]⟩

theorem exists_append_eq (low : BitVec 31) : ∃ (c : BitVec 8) (m : BitVec 23), c ++ m = low := by
  refine ⟨low.extractLsb' 23 8, low.extractLsb' 0 23, ?_⟩
  ext i hi
  grind

/-- One magnitude composed with two signs gives two values. -/
theorem compose_left_injective (mag : Magnitude) : Function.Injective (compose · mag) := by
  intro s s' h
  cases mag <;> simpa [compose] using h

/-- Settles O31: both words are composed of a sign and the same two fields. -/
theorem signIsComposedNotMultiplied : Obligations.SignIsComposedNotMultiplied := by
  intro low h
  obtain ⟨c, m, rfl⟩ := exists_append_eq low
  have not_nan : classify c m ≠ .nan := by
    rw [classify_eq_classOf 0]
    exact fun hnan => h ((classOf_eq_nan_iff _).1 hnan)
  obtain ⟨mag, composed⟩ := exists_magnitude not_nan
  exact ⟨mag, composed, fun heq => absurd (compose_left_injective mag heq) (by decide)⟩

theorem classOf_eq_subnormal_iff (w : Word) : classOf w = .subnormal ↔ charField w = 0#8 ∧ mantField w ≠ 0#23 := by
  rcases classOf_cases w with ⟨e, hc, hm⟩ | ⟨e, hc, hm⟩ | ⟨e, hc, hm⟩ | ⟨e, hc, hm⟩ | ⟨e, hc, hm⟩ <;> simp [e, hc, hm]

/-- Settles O32: a pattern of class SUBNORMAL is no NaN, so it is its own result; its nonzero mantissa tells it from
both zeros. -/
theorem subnormalsAreNotFlushed : Obligations.SubnormalsAreNotFlushed := by
  intro s p w hp hop hbits hc hm
  have class_eq : classOf w = .subnormal := (classOf_eq_subnormal_iff w).2 ⟨hc, hm⟩
  have result_eq : (decodeOutputs w).f32_o = w :=
    interpretBits_of_not_nan fun h => by simp [← classOf_eq_nan_iff, class_eq] at h
  refine ⟨decodeOutputs w, exec_decode_of_held hp hop hbits w, result_eq, congrArg classCode class_eq, rfl, ?_⟩
  rw [result_eq]
  refine ⟨?_, ?_, interpret_of_subnormal class_eq⟩
  · rintro rfl
    exact hm rfl
  · rintro rfl
    exact hm rfl

theorem toNat_mantissa_le (m : BitVec 23) : (m.toNat : Rat) ≤ 8388607 := by
  exact_mod_cast Nat.le_pred_of_lt m.isLt

theorem subnormalMagnitude_mem_Icc {m : BitVec 23} (h : m ≠ 0#23) :
    subnormalMagnitude m ∈
      Set.Icc ((2 : Rat) ^ (-149 : Int)) ((1 - (2 : Rat) ^ (-23 : Int)) * (2 : Rat) ^ (-126 : Int)) := by
  have m_pos : 1 ≤ m.toNat := by bv_omega
  have m_pos' : (1 : Rat) ≤ m.toNat := by exact_mod_cast m_pos
  have m_le := toNat_mantissa_le m
  rw [subnormalMagnitude]
  constructor <;> norm_num <;> linarith

theorem normalMagnitude_mem_Icc {c : BitVec 8} (h0 : c ≠ 0#8) (h255 : c ≠ 255#8) (m : BitVec 23) :
    normalMagnitude c m ∈
      Set.Icc ((2 : Rat) ^ (-126 : Int)) ((2 - (2 : Rat) ^ (-23 : Int)) * (2 : Rat) ^ (127 : Int)) := by
  have c_range : 1 ≤ c.toNat ∧ c.toNat ≤ 254 := by bv_omega
  have scale_ge : (2 : Rat) ^ (-126 : Int) ≤ 2 ^ ((c.toNat : Int) - 127) := zpow_le_zpow_right₀ (by norm_num) (by omega)
  have scale_le : (2 : Rat) ^ ((c.toNat : Int) - 127) ≤ 2 ^ (127 : Int) := zpow_le_zpow_right₀ (by norm_num) (by omega)
  have mantissa_ge : (1 : Rat) ≤ 1 + (m.toNat : Rat) / 2 ^ 23 := le_add_of_nonneg_right (by positivity)
  have mantissa_le : 1 + (m.toNat : Rat) / 2 ^ 23 ≤ 2 - (2 : Rat) ^ (-23 : Int) := by
    have m_le := toNat_mantissa_le m
    norm_num
    linarith
  rw [normalMagnitude]
  exact ⟨scale_ge.trans (le_mul_of_one_le_left (by positivity) mantissa_ge),
    mul_le_mul mantissa_le scale_le (by positivity) (by norm_num)⟩

/-- Settles O30: only the classes SUBNORMAL and NORMAL have finite nonzero values, each in its range. -/
theorem magnitudeRanges : Obligations.MagnitudeRanges := by
  intro w s q hq
  rcases classOf_cases w with ⟨e, -, -⟩ | ⟨e, -, hm⟩ | ⟨e, -, -⟩ | ⟨e, -, -⟩ | ⟨e, h0, h255⟩
  · simp [interpret, e, compose] at hq
  · rw [interpret_of_subnormal e] at hq
    cases hq
    exact .inl ⟨e, subnormalMagnitude_mem_Icc hm⟩
  · simp [interpret, e, compose] at hq
  · simp [interpret, e] at hq
  · rw [interpret_of_normal e] at hq
    cases hq
    exact .inr ⟨e, normalMagnitude_mem_Icc h0 h255 _⟩

end Sys2Proof.Machine

/-! ### The reference accumulation

Every operand and every result of the source's loop is a number of at most 24 bits times a power of two in range, so
each is representable and no operation rounds (41_float_interpreter.md R79, R80). -/

namespace Sys2Proof.Machine

/-- A number of exactly 24 bits, times a power of two in range, is a normal magnitude (41_float_interpreter.md R76). -/
theorem exists_fieldUnits_eq_of_leading {k n : Nat} (leading : 2 ^ 23 ≤ k) (hk : k < 2 ^ 24) (hn : n ≤ 253) :
    ∃ c m, c ≠ 255#8 ∧ fieldUnits c m = k * 2 ^ n := by
  have char_eq : (BitVec.ofNat 8 (n + 1)).toNat = n + 1 := by
    rw [BitVec.toNat_ofNat, Nat.mod_eq_of_lt (by omega)]
  have mant_eq : (BitVec.ofNat 23 (k - 2 ^ 23)).toNat = k - 2 ^ 23 := by
    rw [BitVec.toNat_ofNat, Nat.mod_eq_of_lt (by omega)]
  refine ⟨BitVec.ofNat 8 (n + 1), BitVec.ofNat 23 (k - 2 ^ 23), by bv_omega, ?_⟩
  rw [fieldUnits_of_ne_zero (by bv_omega), char_eq, mant_eq, Nat.add_sub_cancel' leading, Nat.add_sub_cancel]

/-- A number of at most 24 bits, times a power of two in range, is the magnitude of some fields: it is doubled until
its leading 1 stands at bit 23, or the power is used up and it is subnormal. -/
theorem exists_fieldUnits_eq {k n : Nat} (hk : k < 2 ^ 24) (hn : n ≤ 253) :
    ∃ c m, c ≠ 255#8 ∧ fieldUnits c m = k * 2 ^ n := by
  induction n generalizing k with
  | zero =>
    rcases Nat.lt_or_ge k (2 ^ 23) with small | leading
    · exact ⟨0#8, BitVec.ofNat 23 k, by decide,
        by rw [fieldUnits_zero, BitVec.toNat_ofNat, Nat.mod_eq_of_lt small, Nat.pow_zero, Nat.mul_one]⟩
    · exact exists_fieldUnits_eq_of_leading leading hk hn
  | succ n ih =>
    rcases Nat.lt_or_ge k (2 ^ 23) with small | leading
    · rw [Nat.pow_succ', ← Nat.mul_assoc, Nat.mul_comm k]
      exact ih (by omega) (by omega)
    · exact exists_fieldUnits_eq_of_leading leading hk hn

/-- Such a nonzero number times a power of two is the magnitude of a binary32 value (41_float_interpreter.md R80). -/
theorem representable_mul_two_zpow {k : Nat} {e : Int} (hpos : 0 < k) (hk : k < 2 ^ 24) (hlow : -149 ≤ e)
    (hhigh : e ≤ 104) : representable ((k : Rat) * 2 ^ e) = true := by
  obtain ⟨n, rfl⟩ : ∃ n : Nat, e = n - 149 := ⟨(e + 149).toNat, by omega⟩
  obtain ⟨c, m, hc, hu⟩ := exists_fieldUnits_eq hk (n := n) (by omega)
  have units_pos : 0 < fieldUnits c m := hu ▸ Nat.mul_pos hpos (Nat.two_pow_pos n)
  have units_eq : (k : Rat) * 2 ^ ((n : Int) - 149) * 2 ^ 149 = fieldUnits c m := by
    rw [hu, mul_assoc, ← zpow_natCast, ← zpow_add₀ two_ne_zero]
    simp
  rw [representable, (encMagnitude_eq_some_iff _ (c ++ m)).2 ⟨c, m, hc, units_pos, units_eq, rfl⟩, Option.isSome_some]

/-- The mantissa with its leading 1 and its lowest `j` bits cleared: what the loop has summed when `j` bits
are left, in units of the last bit's term. -/
def mantissaAbove (m : BitVec 23) (j : Nat) : Nat := 2 ^ 23 + m.toNat / 2 ^ j * 2 ^ j

theorem mantissaAbove_zero (m : BitVec 23) : mantissaAbove m 0 = 2 ^ 23 + m.toNat := by
  simp [mantissaAbove]

theorem mantissaAbove_all (m : BitVec 23) : mantissaAbove m 23 = 2 ^ 23 := by
  rw [mantissaAbove, Nat.div_eq_of_lt m.isLt, Nat.zero_mul, Nat.add_zero]

theorem mantissaAbove_pos (m : BitVec 23) (j : Nat) : 0 < mantissaAbove m j := by
  exact Nat.add_pos_left (Nat.two_pow_pos 23) _

theorem mantissaAbove_lt (m : BitVec 23) (j : Nat) : mantissaAbove m j < 2 ^ 24 := by
  have cleared_le : m.toNat / 2 ^ j * 2 ^ j ≤ m.toNat := Nat.div_mul_le_self _ _
  rw [mantissaAbove]
  omega

/-- The loop's step adds bit `j`. -/
theorem mantissaAbove_eq_succ (m : BitVec 23) (j : Nat) :
    mantissaAbove m j = mantissaAbove m (j + 1) + if m.getLsbD j then 2 ^ j else 0 := by
  have halves : m.toNat / 2 ^ j = 2 * (m.toNat / 2 ^ (j + 1)) + m.toNat / 2 ^ j % 2 := by
    rw [Nat.pow_succ, ← Nat.div_div_eq_div_mul]
    omega
  have bit : m.toNat / 2 ^ j % 2 = if m.getLsbD j then 1 else 0 := by
    rw [← Nat.toNat_testBit, BitVec.getLsbD]
    cases m.toNat.testBit j <;> rfl
  rw [mantissaAbove, mantissaAbove, halves, bit, Nat.pow_succ]
  split <;> ring

section
variable {rnd : Rat → Rat}

/-- With `j` bits left and everything above them summed exactly, the loop ends with the whole mantissa, since no step
rounds. -/
theorem accumulate_eq (hrnd : FixesRepresentable rnd) {e : Int} (hlow : -149 ≤ e) (hhigh : e ≤ 104) (m : BitVec 23)
    {j : Nat} (hj : j ≤ 23) :
    accumulate rnd m j ((2 ^ j : Nat) * 2 ^ e) (mantissaAbove m j * 2 ^ e) = (2 ^ 23 + m.toNat : Nat) * 2 ^ e := by
  induction j with
  | zero => rw [accumulate, mantissaAbove_zero]
  | succ j ih =>
    have pow_lt : 2 ^ j < 2 ^ 24 := Nat.pow_lt_pow_right (by decide) (by omega)
    have half_eq : rnd ((2 ^ (j + 1) : Nat) * 2 ^ e / 2) = (2 ^ j : Nat) * 2 ^ e := by
      rw [← hrnd _ (representable_mul_two_zpow (Nat.two_pow_pos j) pow_lt hlow hhigh)]
      congr 1
      push_cast
      ring
    have sum_eq : (if m.getLsbD j then rnd (mantissaAbove m (j + 1) * 2 ^ e + (2 ^ j : Nat) * 2 ^ e)
        else mantissaAbove m (j + 1) * 2 ^ e) = mantissaAbove m j * 2 ^ e := by
      have exact_sum := hrnd _ (representable_mul_two_zpow (mantissaAbove_pos m j) (mantissaAbove_lt m j) hlow hhigh)
      have step_eq := mantissaAbove_eq_succ m j
      split
      case isTrue hbit =>
        rw [if_pos hbit] at step_eq
        rw [← add_mul, ← Nat.cast_add, ← step_eq, exact_sum]
      case isFalse hbit =>
        rw [if_neg hbit, Nat.add_zero] at step_eq
        rw [step_eq]
    rw [accumulate, half_eq, sum_eq, ih (by omega)]

/-- The reference's subnormal magnitude is exact: both factors and the product are representable. -/
theorem referenceSubnormal_eq (hrnd : FixesRepresentable rnd) {m : BitVec 23} (h : m ≠ 0#23) :
    referenceSubnormal rnd m = subnormalMagnitude m := by
  have m_pos : 0 < m.toNat := by bv_omega
  have m_lt : m.toNat < 2 ^ 24 := by omega
  have mantissa_eq : rnd m.toNat = m.toNat := by
    simpa using hrnd _ (representable_mul_two_zpow m_pos m_lt (e := 0) (by decide) (by decide))
  have scale_eq : rnd (2 ^ (-149 : Int)) = 2 ^ (-149 : Int) := by
    simpa using hrnd _ (representable_mul_two_zpow Nat.one_pos (by decide) (e := -149) (by decide) (by decide))
  rw [referenceSubnormal, mantissa_eq, scale_eq, subnormalMagnitude]
  exact hrnd _ (representable_mul_two_zpow m_pos m_lt (by decide) (by decide))

/-- The reference's normal magnitude is exact: it starts from the leading 1 and sums the other 23 bits. -/
theorem referenceNormal_eq (hrnd : FixesRepresentable rnd) {c : BitVec 8} (h0 : c ≠ 0#8) (h255 : c ≠ 255#8)
    (m : BitVec 23) : referenceNormal rnd c m = normalMagnitude c m := by
  have c_range : 1 ≤ c.toNat ∧ c.toNat ≤ 254 := by bv_omega
  have hlow : -149 ≤ (c.toNat : Int) - 150 := by omega
  have hhigh : (c.toNat : Int) - 150 ≤ 104 := by omega
  have scale_eq : (2 : Rat) ^ ((c.toNat : Int) - 127) = (2 ^ 23 : Nat) * 2 ^ ((c.toNat : Int) - 150) := by
    rw [Nat.cast_pow, ← zpow_natCast, Nat.cast_ofNat, ← zpow_add₀ two_ne_zero]
    congr 1
    push_cast
    ring
  have start_eq := hrnd _ (representable_mul_two_zpow (Nat.two_pow_pos 23) (by decide) hlow hhigh)
  have summed := accumulate_eq hrnd hlow hhigh m le_rfl
  rw [mantissaAbove_all] at summed
  rw [referenceNormal, normalMagnitude, scale_eq, start_eq, summed]
  push_cast
  ring

end

/-- Settles O29: the reference computes with arithmetic only the finite nonzero magnitudes, and these exactly. -/
theorem referenceAccumulationNeverRounds : Obligations.ReferenceAccumulationNeverRounds := by
  intro rnd hrnd w
  rcases classOf_cases w with ⟨e, -, -⟩ | ⟨e, -, hm⟩ | ⟨e, -, -⟩ | ⟨e, -, -⟩ | ⟨e, h0, h255⟩
  · simp [referenceInterpret, interpret, e]
  · simp [referenceInterpret, interpret, e, referenceSubnormal_eq hrnd hm]
  · simp [referenceInterpret, interpret, e]
  · simp [referenceInterpret, interpret, e]
  · simp [referenceInterpret, interpret, e, referenceNormal_eq hrnd h0 h255]

end Sys2Proof.Machine

/-! ### PARSE_DECODE

PARSE_DECODE is PARSE, and DECODE of its word where PARSE reports no error (42_pipeline.md R91, R92, R94). -/

namespace Sys2Proof.Machine

theorem parseErrorOutputs_err_ne_zero (e : ParseError) : (parseErrorOutputs e).err_o ≠ 0 := by
  cases e with
  | wrongLength => exact (by decide : errCode .wrongLength ≠ 0)
  | invalidCharacter ch => exact (by decide : errCode .invalidCharacter ≠ 0)

/-- The outputs of the two operations, by whether PARSE reports an error (42_pipeline.md R94). -/
theorem parseDecodeOutputs_eq_ite (n : Nat) (str : Lanes) :
    parseDecodeOutputs n str =
      if (parseOutputs n str).err_o = 0 then decodeOutputs (parseOutputs n str).word_o else parseOutputs n str := by
  rcases h : bitParser n str with e | v
  · rw [parseDecodeOutputs_of_error h, parseOutputs_of_error h, if_neg (parseErrorOutputs_err_ne_zero e)]
  · rw [parseDecodeOutputs_of_ok h, parseOutputs_of_ok h]
    exact (if_pos rfl).symm

/-- PARSE_DECODE reads what PARSE reads, so where PARSE answers next it does too. -/
theorem exec_parseDecode_of_exec_parse {s sP : State} {n : Nat} {str : Lanes}
    (h : exec (.parse n str) s = .next sP) :
    exec (.parseDecode n str) s = .next { s with outputs := some (parseDecodeOutputs n str) } := by
  obtain ⟨hheld, -⟩ := (exec_eq_next_iff (.parse n str) s sP).1 h
  exact (exec_eq_next_iff (.parseDecode n str) s _).2 ⟨hheld, rfl⟩

/-- Settles O19: where PARSE completes so does PARSE_DECODE, and its outputs are decided by the error code. -/
theorem parseDecodeIsParseThenDecode : Obligations.ParseDecodeIsParseThenDecode := by
  intro s sP n str o h ho
  obtain ⟨-, rfl⟩ := (exec_eq_next_iff (.parse n str) s sP).1 h
  obtain rfl : parseOutputs n str = o := Option.some.inj ho
  rw [exec_parseDecode_of_exec_parse h, parseDecodeOutputs_eq_ite]
  refine ⟨fun herr => ?_, fun hok => ?_⟩
  · rw [if_neg herr]
    rfl
  · rw [if_pos hok]
    rfl

/-- Settles O13: in each case PARSE completes as O11 says, and by R94 its error stands or its word is decoded. -/
theorem parseDecodeResult : Obligations.ParseDecodeResult := by
  intro s p n str hp hop hlen
  obtain ⟨wrong_length, invalid_character, word⟩ := parseResult s p n str hp hop hlen
  have then_decode := fun o (parsed : exec (.parse n str) s = .next { s with outputs := some o }) =>
    parseDecodeIsParseThenDecode s _ n str o parsed rfl
  refine ⟨fun hn => ?_, fun hn k hk hleft hheld => ?_, fun hn hvalid hheld v hv => ?_⟩
  · exact (then_decode _ (wrong_length hn)).1 (by decide : (1 : BitVec 2) ≠ 0)
  · exact (then_decode _ (invalid_character hn k hk hleft hheld)).1 (by decide : (2 : BitVec 2) ≠ 0)
  · rw [← decodeOutputs_eq_decodedBySlices]
    exact (then_decode _ (word hn hvalid hheld v hv)).2 rfl

end Sys2Proof.Machine

/-! ### Errors

Which error a transaction reports (60_exceptions.md R100), and where an error ends a host's run (R105, R106). -/

namespace Sys2Proof.Machine

theorem f32dec_of_reserved {p : Inputs} (h : p.op_i = 0b11#2) : f32dec p = reportedError 3 0 := by
  have selected : decodeOp p = .reserved := by simp [decodeOp, h]
  rw [f32dec, selected]
  rfl

theorem f32dec_of_decode {p : Inputs} (h : p.op_i = 0b01#2) : f32dec p = decodeOutputs p.bits_i := by
  have selected : decodeOp p = .decode p.bits_i := by simp [decodeOp, h]
  rw [f32dec, selected]
  rfl

/-- Both string operations report BitParser's error, and none where it answers a word. -/
theorem f32dec_of_string {p : Inputs} (h : p.op_i = 0b00#2 ∨ p.op_i = 0b10#2) :
    (∀ e, bitParser p.len_i p.chr_i = .error e → f32dec p = parseErrorOutputs e) ∧
      (∀ v, bitParser p.len_i p.chr_i = .ok v → (f32dec p).err_o = 0) := by
  rcases h with hop | hop
  · have selected : f32dec p = parseOutputs p.len_i p.chr_i := by simp [f32dec, decodeOp, hop, outputsOf]
    rw [selected]
    exact ⟨fun e => parseOutputs_of_error, fun v hv => by rw [parseOutputs_of_ok hv]; rfl⟩
  · have selected : f32dec p = parseDecodeOutputs p.len_i p.chr_i := by simp [f32dec, decodeOp, hop, outputsOf]
    rw [selected]
    exact ⟨fun e => parseDecodeOutputs_of_error, fun v hv => by rw [parseDecodeOutputs_of_ok hv]; rfl⟩

/-- A string that is not all digits has a leftmost invalid lane. -/
theorem exists_first_invalid {str : Lanes} (h : ¬ ∀ k : Fin 32, ValidDigit str[k]) :
    ∃ k : Fin 32, ¬ ValidDigit str[k] ∧ ∀ j : Fin 32, j < k → ValidDigit str[j] := by
  obtain ⟨k, hk⟩ := exists_minimal_of_wellFoundedLT (fun k : Fin 32 => ¬ ValidDigit str[k]) (not_forall.1 h)
  exact ⟨k, hk.prop, fun j hj => not_not.1 (hk.not_prop_of_lt hj)⟩

/-- Settles O18: RESERVED and DECODE leave no choice, and a string operation reports BitParser's error, which tests the
length before the lanes and stops at the leftmost invalid one. -/
theorem errorPriority : Obligations.ErrorPriority := by
  intro p
  refine ⟨fun hop => ?_, fun hop => ?_, fun hop => ?_⟩
  · rw [f32dec_of_reserved hop]
    rfl
  · rw [f32dec_of_decode hop]
    rfl
  obtain ⟨of_error, of_ok⟩ := f32dec_of_string hop
  refine ⟨fun hlen => ?_, fun hlen => ?_⟩
  · rw [of_error _ (bitParser_of_wrong_length hlen _)]
    rfl
  rw [hlen] at of_error of_ok
  have of_first_invalid : ∀ k : Fin 32, ¬ ValidDigit p.chr_i[k] → (∀ j : Fin 32, j < k → ValidDigit p.chr_i[j]) →
      f32dec p = parseErrorOutputs (.invalidCharacter p.chr_i[k]) :=
    fun _ hk hleft => of_error _ (bitParser_of_first_invalid hk hleft)
  by_cases hvalid : ∀ k : Fin 32, ValidDigit p.chr_i[k]
  · obtain ⟨v, hv⟩ := (exists_bitParser_eq_ok_iff _).2 hvalid
    have err_eq : (f32dec p).err_o = 0 := of_ok v hv
    exact ⟨iff_of_false (by simp [err_eq]) fun ⟨k, hk⟩ => hk (hvalid k), iff_of_true err_eq hvalid,
      fun k hk => absurd (hvalid k) hk⟩
  · obtain ⟨k, hk, hleft⟩ := exists_first_invalid hvalid
    have err_eq : (f32dec p).err_o = 2 := by
      rw [of_first_invalid k hk hleft]
      rfl
    refine ⟨iff_of_true err_eq ⟨k, hk⟩, iff_of_false (by simp [err_eq]) hvalid, fun j hj hleft' => ?_⟩
    rw [of_first_invalid j hj hleft']
    rfl

/-- The test that ends a run, as the machine evaluates it and as a condition. -/
theorem isParse_and_err_ne_zero_iff (i : Instr) :
    (isParse i && decide ((outputsOf i).err_o ≠ 0)) = true ↔ isParse i = true ∧ (outputsOf i).err_o ≠ 0 := by
  rw [Bool.and_eq_true, decide_eq_true_iff]

section
variable {rest : Inputs} {i : Instr}

/-- A well-formed transaction of a dutiful host completes, whatever was on the ports before. -/
theorem step_dutiful (hr : rest.wf = true) (hi : i.wf = true) (s : State) :
    step { s with pending := [dutiful rest i] } =
      .next { presented := some (dutiful rest i), outputs := some (outputsOf i), pending := [] } := by
  have decoded : decode (dutiful rest i).inputs = .ok i := decode_encodeOver hr hi
  have all_held : heldFor i Held.all = true := by simp [heldFor, holds_all]
  rw [step_of_decode (nextPresentation_of_pending rfl) decoded, issueNext_of_pending rfl]
  exact (exec_eq_next_iff i _ _).2 ⟨⟨_, rfl, all_held⟩, rfl⟩

/-- A parse error ends the run (60_exceptions.md R105). -/
theorem hostRun_cons_of_parseError (hr : rest.wf = true) (hi : i.wf = true)
    (h : isParse i = true ∧ (outputsOf i).err_o ≠ 0) (is : List Instr) (s : State) :
    hostRun rest (i :: is) s =
      { outputs := [outputsOf i], ended := .parseError (outputsOf i).err_o (outputsOf i).errchr_o } := by
  simp only [hostRun, step_dutiful hr hi, readOutputs]
  exact if_pos ((isParse_and_err_ne_zero_iff i).2 h)

/-- Any other transaction gives its outputs, and the run goes on from some state. -/
theorem hostRun_cons_of_no_parseError (hr : rest.wf = true) (hi : i.wf = true)
    (h : ¬ (isParse i = true ∧ (outputsOf i).err_o ≠ 0)) (is : List Instr) (s : State) :
    ∃ s', (hostRun rest (i :: is) s).outputs = outputsOf i :: (hostRun rest is s').outputs ∧
      (hostRun rest (i :: is) s).ended = (hostRun rest is s').ended := by
  refine ⟨{ presented := some (dutiful rest i), outputs := some (outputsOf i), pending := [] }, ?_⟩
  simp only [hostRun, step_dutiful hr hi, readOutputs]
  rw [if_neg ((isParse_and_err_ne_zero_iff i).not.2 h)]
  exact ⟨rfl, rfl⟩

end

/-- Settles O40, by induction on the transactions: the first one ends the run with its error, or the rest of the run
is that of the others from the state it leaves. -/
theorem runEndsAtTheFirstParseError : Obligations.RunEndsAtTheFirstParseError := by
  intro rest is s hr hwf
  induction is generalizing s with
  | nil => exact ⟨rfl, rfl⟩
  | cons i is ih =>
    obtain ⟨hi, his⟩ := List.forall_mem_cons.1 hwf
    by_cases h : isParse i = true ∧ (outputsOf i).err_o ≠ 0
    · rw [hostRun_cons_of_parseError hr hi h, issuedOf, if_pos h, List.filter_cons,
        if_pos ((isParse_and_err_ne_zero_iff i).2 h)]
      exact ⟨rfl, rfl⟩
    · obtain ⟨s', outputs_eq, ended_eq⟩ := hostRun_cons_of_no_parseError hr hi h is s
      obtain ⟨ih_outputs, ih_ended⟩ := ih s' his
      rw [outputs_eq, ended_eq, ih_outputs, ih_ended, issuedOf, if_neg h,
        List.filter_cons, if_neg ((isParse_and_err_ne_zero_iff i).not.2 h)]
      exact ⟨rfl, rfl⟩

end Sys2Proof.Machine

/-! ### Reset and hazards

What is read or run before the inputs are driven, after an input changed, and while every input is held
(70_reset_and_hazards.md R110, R112, R117). -/

namespace Sys2Proof.Machine

theorem run_succ_of_step {s s' : State} (h : step s = .next s') (n : Nat) :
    Sys2Proof.core.run (n + 1) s = Sys2Proof.core.run n s' := by
  have core_step : Sys2Proof.core.step s = .next s' := h
  simp [Host.Core.run, core_step]

/-- A step that takes a held transaction from the queue leaves it on the ports with its outputs. -/
theorem step_of_pending_held {s : State} {p : Presentation} {rest : List Presentation} (hq : s.pending = p :: rest)
    (hwf : p.inputs.wf = true) (hh : heldFor (decodeOp p.inputs) p.held = true) :
    step s = .next { presented := some p, outputs := some (f32dec p.inputs), pending := rest } := by
  rw [step_of_held (nextPresentation_of_pending hq) hwf hh, issueNext_of_pending hq]

/-- A run of held transactions ends with the last one on the ports and its outputs, whatever stood there before. -/
theorem run_of_pending_held {s : State} {p : Presentation} {rest : List Presentation} (hq : s.pending = p :: rest)
    (hheld : ∀ q ∈ p :: rest, q.inputs.wf = true ∧ heldFor (decodeOp q.inputs) q.held = true) :
    Sys2Proof.core.run (rest.length + 1) s =
      .next { presented := some ((p :: rest).getLast (List.cons_ne_nil p rest))
              outputs := some (f32dec ((p :: rest).getLast (List.cons_ne_nil p rest)).inputs)
              pending := [] } := by
  induction rest generalizing s p with
  | nil =>
    obtain ⟨hwf, hh⟩ := hheld p List.mem_cons_self
    rw [run_succ_of_step (step_of_pending_held hq hwf hh)]
    rfl
  | cons q rest ih =>
    obtain ⟨⟨hwf, hh⟩, hrest⟩ := List.forall_mem_cons.1 hheld
    rw [run_succ_of_step (step_of_pending_held hq hwf hh), List.length_cons, ih rfl hrest]
    rfl

/-- Settles O10: an empty run takes no step, and any other ends with its last transaction. -/
theorem heldRunCompletes : Obligations.HeldRunCompletes := by
  intro s hheld
  rcases hq : s.pending with _ | ⟨p, rest⟩
  · exact ⟨s, rfl, hq, nofun⟩
  · rw [hq] at hheld
    refine ⟨_, run_of_pending_held hq hheld, rfl, fun last hlast => ?_⟩
    rw [List.getLast?_eq_some_getLast (List.cons_ne_nil p rest)] at hlast
    obtain rfl := Option.some.inj hlast
    exact ⟨rfl, rfl⟩

/-- With a transaction presented, an operation is refused exactly when an input it reads was not held. -/
theorem exec_eq_refused_iff {s : State} {p : Presentation} (hp : s.presented = some p) (i : Instr) :
    exec i s = .refused .inputChanged ↔ ¬ heldFor i p.held = true := by
  rw [exec_eq_transact]
  rcases hh : heldFor i p.held with _ | _
  · exact iff_of_true (transact_of_not_held hp hh) Bool.false_ne_true
  · rw [transact_of_held hp hh]
    simp

theorem heldFor_decode_iff (w : Word) (h : Held) :
    heldFor (.decode w) h = true ↔ h.op_i = true ∧ h.bits_i = true := by
  simp [heldFor, readsOf, wordReads, holds]

theorem heldFor_reserved_iff (h : Held) : heldFor .reserved h = true ↔ h.op_i = true := by
  simp [heldFor, readsOf, noOperandReads, holds]

theorem mem_lanesRead_iff_validDigit (str : Lanes) (k : Fin 32) :
    k ∈ lanesRead str ↔ ∀ j : Fin 32, j < k → ValidDigit str[j] := by
  rw [mem_lanesRead]
  exact forall₂_congr fun j _ => isDigit_iff_validDigit str[j]

/-- Both string operations read `op_i`, `len_i` and, at length 32, the lanes with only digits left of them. -/
theorem heldFor_string_iff {i : Instr} {n : Nat} {str : Lanes} (hi : i = .parse n str ∨ i = .parseDecode n str)
    (h : Held) :
    heldFor i h = true ↔
      h.op_i = true ∧ h.len_i = true ∧
        (n = 32 → ∀ k : Fin 32, (∀ j : Fin 32, j < k → ValidDigit str[j]) → h.chr_i[k] = true) := by
  have reads : readsOf i = stringReads n str := by
    rcases hi with rfl | rfl <;> rfl
  simp only [heldFor, reads, stringReads_all_holds_iff, mem_lanesRead_iff_validDigit]

/-- Settles O34: an operation is refused exactly when it is not held, and each format says what it must hold. -/
theorem refusedExactlyWhenAReadInputChanged : Obligations.RefusedExactlyWhenAReadInputChanged := by
  intro s p hp
  refine ⟨fun w => ?_, ?_, fun i n str hi => ?_⟩
  · rw [exec_eq_refused_iff hp, heldFor_decode_iff]
  · rw [exec_eq_refused_iff hp, heldFor_reserved_iff]
  · rw [exec_eq_refused_iff hp, heldFor_string_iff hi]

theorem transact_of_undriven {s : State} (h : s.presented = none) (reads : List InPort) (o : Outputs) :
    transact reads o s = .fault .inputsUndriven := by
  simp [transact, h]

theorem exec_of_undriven {s : State} (h : s.presented = none) (i : Instr) : exec i s = .fault .inputsUndriven := by
  rw [exec_eq_transact, transact_of_undriven h]

theorem readOutputs_of_unreadable {s : State} (h : s.outputs = none) : readOutputs s = .error .outputsUnreadable := by
  simp [readOutputs, h]

/-- Settles O33: at reset nothing is presented or pending and no output is readable. -/
theorem nothingReadableBeforeInputsAreDriven : Obligations.NothingReadableBeforeInputsAreDriven :=
  ⟨readOutputs_of_unreadable reset_outputs,
    step_of_undriven ((nextPresentation_of_idle reset_pending).trans reset_presented),
    fun i _ h => exec_of_undriven h i⟩

/-- A read of the outputs depends on the output ports only. -/
theorem readOutputs_congr {s t : State} (h : s.outputs = t.outputs) : readOutputs s = readOutputs t := by
  simp [readOutputs, h]

/-- Settles O36: presenting leaves no outputs, and a change leaves none or those that were there. -/
theorem changingAReadInputHidesTheOutputs : Obligations.ChangingAReadInputHidesTheOutputs := by
  refine ⟨fun s p => readOutputs_of_unreadable (hostPresent_outputs p s), fun s p d hp hd => ?_⟩
  rw [hostChange_of_change hp hd]
  exact ⟨fun hread => readOutputs_of_unreadable (if_pos hread), fun hunread => readOutputs_congr (if_neg hunread)⟩

end Sys2Proof.Machine
